-- ==== Sys2Proof/Word.lean ====
section
/-!
DEFINITION. The words of the machine (00_scope.md R5 table T-5a): 8-bit data, 13-bit instruction words, 5-bit opcodes.
-/
namespace Sys2Proof

/-- A value of DATA_WIDTH bits: Wreg, a register of the file, a RAM cell, an address, an operand (R5). -/
abbrev Byte := BitVec 8

/-- One instruction word, INSTR_WIDTH bits: `iw[12:8]` the opcode, `iw[7:0]` the operand (R90). -/
abbrev Iw := BitVec 13

/-- An opcode, OPCODE_WIDTH bits (R90). -/
abbrev Opcode := BitVec 5

end Sys2Proof
end

