-- ==== Sys2Proof/Config.lean ====
section
/-!
DEFINITION. What the spec leaves to the implementation: the named parameters of 00_scope.md R5 table T-5b that a step
reads, with the defaults the spec takes, and the free values (opaque: no proof can see what they are).
-/
namespace Sys2Proof

/-- P_CARRY_SUB (T-5b, D7): what `carryF` means after SUB and DEC. -/
inductive CarrySub where
  | borrow      -- 1 exactly when a borrow occurred
  | notBorrow   -- the inverse
  deriving DecidableEq, Repr

/-- P_CARRY_LOGIC (T-5b, D8): what AND, OR, XOR and NOT do to `carryF`. -/
inductive CarryLogic where
  | clear       -- it becomes 0
  | unchanged   -- it keeps its value
  | any         -- it takes an unconstrained value, drawn anew each time
  deriving DecidableEq, Repr

/-- P_CARRY_INCDEC (T-5b, D9): what INC and DEC do to `carryF`. -/
inductive CarryIncDec where
  | asAddSub    -- as ADD of 1 and SUB of 1
  | unchanged   -- it keeps its value
  deriving DecidableEq, Repr

/-- ILLEGAL_OPCODE_POLICY (T-5b, D13): what a word with an unassigned opcode does. -/
inductive IllegalPolicy where
  | fault       -- a model fault, `IllegalOpcode(iw)`
  | nop         -- it executes as NOP
  deriving DecidableEq, Repr

/-- The parameters a step reads (R5 table T-5b). The launch-only ones are in `Machine.Launch`. -/
structure Config where
  /-- P_CARRY_SUB -/
  carrySub : CarrySub
  /-- P_CARRY_LOGIC -/
  carryLogic : CarryLogic
  /-- P_CARRY_INCDEC -/
  carryIncDec : CarryIncDec
  /-- LITERAL_PC_SIGNALS -/
  literalPcSignals : Bool
  /-- STRICT_OPERANDS -/
  strictOperands : Bool
  /-- ILLEGAL_OPCODE_POLICY -/
  illegalPolicy : IllegalPolicy
  deriving DecidableEq, Repr

/-- The defaults the spec takes (T-5b, D7 to D13). UNVERIFIED, log entry 2: unsafe, the source gives no evidence for them. -/
def Config.default : Config where
  carrySub := .borrow
  carryLogic := .clear
  carryIncDec := .asAddSub
  literalPcSignals := false
  strictOperands := false
  illegalPolicy := .fault

/-- The byte the environment presents at an IN that finds no byte listed in `State.input` (R170, U9): a free value,
one for each value of the counter `State.draws`. DESIGN CHOICE, log entry 8: safe. -/
opaque Config.inputByte : Nat → Byte

/-- `carryF` after a logic command under P_CARRY_LOGIC = any (T-140, U11): a free value, one for each value of
`State.draws`. DESIGN CHOICE, log entry 10: safe. -/
opaque Config.freeCarry : Nat → Bool

/-- What the data bus carries when no signal drives it (R104 points 1 and 2, N16): a free value, used in
Machine/Datapath.lean only. DESIGN CHOICE, log entry 12: safe. -/
opaque Config.undrivenBus : Nat → Byte

end Sys2Proof
end

