-- ==== Sys2Proof/Syntax.lean ====
section
/-!
DEFINITION. The registers an instruction can name (10_state.md table T-23) and the 22 instructions (30_encoding.md
table T-95). A constructor also carries the operand bits its instruction does not use, so that decoding drops no bit of
the word; no meaning reads them (R94).
-/
namespace Sys2Proof

/-- The eight registers of the register file, in the order of their codes 0 to 7 (T-23). Wreg and PC have no code. -/
inductive Reg where
  | r0 | r1 | r2 | r3 | r4 | sp | md | ma
  deriving DecidableEq, Repr

/-- The 22 instructions (T-95), one constructor per row of spec/opcode_table.json. `unused` is `iw[7:0]` in format N
and `iw[7:3]` in format R (R91, R94). -/
inductive Instr where
  /-- `NOP` (R120) -/
  | nop (unused : Byte)
  /-- `LOADI Wreg imm` (R121) -/
  | loadi (imm : Byte)
  /-- `LOADA Wreg [addr]` (R122) -/
  | loada (addr : Byte)
  /-- `STORE Wreg [addr]` (R123) -/
  | store (addr : Byte)
  /-- `MOV Wreg Rn` (R124) -/
  | mov (unused : BitVec 5) (rn : Reg)
  /-- `MOVW Rn Wreg` (R125) -/
  | movw (unused : BitVec 5) (rn : Reg)
  /-- `SET Wreg` (R126) -/
  | set (unused : Byte)
  /-- `CLEAR Wreg` (R127) -/
  | clear (unused : Byte)
  /-- `ADD Wreg Rn` (R141) -/
  | add (unused : BitVec 5) (rn : Reg)
  /-- `SUB Wreg Rn` (R142) -/
  | sub (unused : BitVec 5) (rn : Reg)
  /-- `AND Wreg Rn` (R143) -/
  | and (unused : BitVec 5) (rn : Reg)
  /-- `OR Wreg Rn` (R144) -/
  | or (unused : BitVec 5) (rn : Reg)
  /-- `XOR Wreg Rn` (R145) -/
  | xor (unused : BitVec 5) (rn : Reg)
  /-- `NOT Wreg` (R146) -/
  | not (unused : Byte)
  /-- `INC Wreg` (R147) -/
  | inc (unused : Byte)
  /-- `DEC Wreg` (R148) -/
  | dec (unused : Byte)
  /-- `JMP [addr]` (R161) -/
  | jmp (addr : Byte)
  /-- `JZ [addr]` (R162) -/
  | jz (addr : Byte)
  /-- `JC [addr]` (R163) -/
  | jc (addr : Byte)
  /-- `HLT` (R164) -/
  | hlt (unused : Byte)
  /-- `IN Wreg` (R171); `in` is a word of Lean's own, hence the name -/
  | inp (unused : Byte)
  /-- `OUT Wreg imm` (R172): the immediate is the output row -/
  | out (row : Byte)
  deriving DecidableEq, Repr

end Sys2Proof
end

