-- ==== Sys2Proof/Machine/State.lean ====
section
/-!
DEFINITION. The state of the machine (10_state.md R20), the reasons a step can stop, and the state after reset (R43).
Plain data; what each field means is in INVENTORY.md, '## State'.
-/
namespace Sys2Proof.Machine

/-- The component REGISTERS: eight 8-bit registers (R22, T-23). -/
structure RegFile where
  r0 : Byte
  r1 : Byte
  r2 : Byte
  r3 : Byte
  r4 : Byte
  sp : Byte
  md : Byte
  ma : Byte
  deriving DecidableEq, Repr

/-- Why the machine stops with a fault. -/
inductive Fault where
  /-- Raised by the step when the word fetched has an unassigned opcode and ILLEGAL_OPCODE_POLICY is `fault` (R96, R181).
  Safe: the hardware does something the source does not state. -/
  | illegalOpcode (iw : Iw)
  /-- Raised by the step, under STRICT_OPERANDS only, when an operand bit the instruction does not use is 1 (R94, R181).
  Safe: with the parameter false the word executes. -/
  | nonCanonicalOperand (iw : Iw)
  /-- Answered by the step in a halted state: the machine performs no step (R33, R192). It is the end of a run, not a
  model fault of R10. Safe: nothing is claimed of a step that does not exist. DESIGN CHOICE, log entry 11. -/
  | halted
  deriving DecidableEq, Repr

/-- Why an instruction has no meaning. No instruction of this machine is refused. -/
inductive Refusal where
  /-- Raised by a refused arm of `exec` for an instruction that has no meaning yet (none is left). Safe. -/
  | notModelled (mnemonic : String)
  deriving DecidableEq, Repr

/-- The state of the machine (R20). The last two fields are the model's own. -/
structure State where
  /-- Wreg (R21). -/
  w : Byte
  /-- The register file (R22). -/
  x : RegFile
  /-- The program counter (R26). -/
  pc : Byte
  /-- The flag zeroF (R30). -/
  zeroF : Bool
  /-- The flag carryF (R30). -/
  carryF : Bool
  /-- The halt state (R33). -/
  halted : Bool
  /-- The data memory RAM (R36), as a canonical list of the cells that differ from what an unlisted one reads as. -/
  ram : List Host.Cell
  /-- The program memory ROM (R35), in the same form. -/
  rom : List (Nat × Iw)
  /-- The output history (R38), oldest first. -/
  out : List (Byte × Byte)
  /-- INPUT (R20, R37): the bytes the environment is known to present, oldest first. After them each byte is free. -/
  input : List Byte
  /-- MODEL'S OWN: how many free values have been drawn (log entry 9). -/
  draws : Nat
  /-- MODEL'S OWN place for the parameters of R5; no step changes it (log entry 1). -/
  config : Config
  deriving DecidableEq, Repr

/-- All eight registers 0x00: the value the model names at reset (log entry 4). -/
def RegFile.zero : RegFile := ⟨0, 0, 0, 0, 0, 0, 0, 0⟩

/-- The state after reset (T-43): `pc` = RESET_PC = 0x00, `halted` = 0 and an empty output history as the spec gives
them; W, the registers and the flags, which the spec leaves unspecified, at the values of log entries 3 to 5 (DESIGN
CHOICE, unsafe); both memories with nothing listed (log entries 6 and 7); no input known (log entry 8); the default
parameters (log entry 2). -/
def State.reset : State where
  w := 0
  x := RegFile.zero
  pc := 0
  zeroF := false
  carryF := false
  halted := false
  ram := []
  rom := []
  out := []
  input := []
  draws := 0
  config := Config.default

end Sys2Proof.Machine
end

