-- ==== Sys2Proof/Machine/Ops.lean ====
section
/-!
DEFINITION. The named operations over the memories, the registers, the program counter and the ports. The machine takes
no exception and returns from none (60_exceptions.md R180, R185), so there is no such operation here.
-/
namespace Sys2Proof.Machine

/-! ## Memories as lists of cells: one set of operations for RAM and ROM -/

/-- The cell at `a`: the listed value, or `d`, what an unlisted address reads as. -/
def cellRead {n : Nat} (d : BitVec n) : List (Nat × BitVec n) → Nat → BitVec n
  | [], _ => d
  | (k, v) :: m, a => if k = a then v else cellRead d m a

/-- The list without any entry for `a`. -/
def cellErase {n : Nat} : List (Nat × BitVec n) → Nat → List (Nat × BitVec n)
  | [], _ => []
  | (k, v) :: m, a => if k = a then cellErase m a else (k, v) :: cellErase m a

/-- The list with `v` at `a`, in the place the order of addresses gives it. -/
def cellInsert {n : Nat} : List (Nat × BitVec n) → Nat → BitVec n → List (Nat × BitVec n)
  | [], a, v => [(a, v)]
  | (k, u) :: m, a, v =>
    if a < k then (a, v) :: (k, u) :: m
    else if k = a then (a, v) :: m
    else (k, u) :: cellInsert m a v

/-- Writing one cell; writing what an unlisted address reads as removes the entry. -/
def cellWrite {n : Nat} (d : BitVec n) (m : List (Nat × BitVec n)) (a : Nat) (v : BitVec n) : List (Nat × BitVec n) :=
  if v = d then cellErase m a else cellInsert m a v

/-- The canonical form, for entries at `lo` and above: addresses strictly rising and below 256, no entry equal to `d`. -/
def cellsWfFrom {n : Nat} (d : BitVec n) : Nat → List (Nat × BitVec n) → Bool
  | _, [] => true
  | lo, (k, v) :: m => decide (lo ≤ k) && decide (k < 256) && decide (v ≠ d) && cellsWfFrom d (k + 1) m

/-- The canonical form of a memory. -/
def cellsWf {n : Nat} (d : BitVec n) (m : List (Nat × BitVec n)) : Bool := cellsWfFrom d 0 m

/-- The canonical list of `n` cells from address `lo` on, holding what `f` gives. -/
def cellsOf {w : Nat} (d : BitVec w) (f : Nat → BitVec w) : Nat → Nat → List (Nat × BitVec w)
  | 0, _ => []
  | n + 1, lo => if f lo = d then cellsOf d f n (lo + 1) else (lo, f lo) :: cellsOf d f n (lo + 1)

/-- What a RAM cell that is not listed reads as (R73 gives no value). DESIGN CHOICE, log entry 6: unsafe. -/
def ramUnlisted : Byte := 0x00#8

/-- What a ROM word that is not listed reads as (R74 gives no value): the illegal word 0x1FFF, so that a run into
program memory that was not loaded stops (95_test_vectors.md section 3). DESIGN CHOICE, log entry 7: safe. -/
def romUnlisted : Iw := 0x1FFF#13

/-- The canonical form of both memories of a state. -/
def Memory.wf (s : State) : Bool := cellsWf ramUnlisted s.ram && cellsWf romUnlisted s.rom

/-- `MemRead(a, 1)` (R9, R64). -/
def State.ramRead (s : State) (a : Byte) : Byte := cellRead ramUnlisted s.ram a.toNat

/-- `MemWrite(a, 1, v)` (R9, R64). -/
def State.ramWrite (s : State) (a v : Byte) : State := { s with ram := cellWrite ramUnlisted s.ram a.toNat v }

/-- `Fetch(a)` (R9, R64): the word at a program address. -/
def State.romRead (s : State) (a : Byte) : Iw := cellRead romUnlisted s.rom a.toNat

/-- Placing a word in the program memory: an act of the loader before a run (R212), of no instruction (R35). -/
def State.romLoad (s : State) (a : Byte) (v : Iw) : State := { s with rom := cellWrite romUnlisted s.rom a.toNat v }

/-! ## Registers, flags and program counter -/

/-- Reading the register file (R22): no register is hard-wired. -/
def RegFile.get (x : RegFile) : Reg → Byte
  | .r0 => x.r0
  | .r1 => x.r1
  | .r2 => x.r2
  | .r3 => x.r3
  | .r4 => x.r4
  | .sp => x.sp
  | .md => x.md
  | .ma => x.ma

/-- Writing one register of the file (R22). -/
def RegFile.set (x : RegFile) (r : Reg) (v : Byte) : RegFile :=
  match r with
  | .r0 => { x with r0 := v }
  | .r1 => { x with r1 := v }
  | .r2 => { x with r2 := v }
  | .r3 => { x with r3 := v }
  | .r4 => { x with r4 := v }
  | .sp => { x with sp := v }
  | .md => { x with md := v }
  | .ma => { x with ma := v }

/-- `x[rn]` (R8). -/
def State.reg (s : State) (rn : Reg) : Byte := s.x.get rn

/-- `x[rn] <- v` (R8). -/
def State.setReg (s : State) (rn : Reg) (v : Byte) : State := { s with x := s.x.set rn v }

/-- `W <- v` (R8). -/
def State.setW (s : State) (v : Byte) : State := { s with w := v }

/-- Both flags written together, as every ALU command does (R31, R140). -/
def State.setFlags (s : State) (z c : Bool) : State := { s with zeroF := z, carryF := c }

/-- `pc <- t` (R8). -/
def State.setPc (s : State) (t : Byte) : State := { s with pc := t }

/-- `pc + 1`, modulo 256 (R29). -/
def State.pcNext (s : State) : Byte := s.pc + 1

/-- Falling through to the next program address (T-28). -/
def State.advance (s : State) : State := s.setPc s.pcNext

/-- `pc` after an instruction whose signal row sets neither PC_LOAD nor PC_EN (the marked rows of T-28): the next address,
and under LITERAL_PC_SIGNALS the same one. -/
def State.pcMarked (s : State) : Byte := if s.config.literalPcSignals then s.pc else s.pcNext

/-- Falling through in a marked row of T-28. -/
def State.advanceMarked (s : State) : State := s.setPc s.pcMarked

/-- `halted <- 1` (R33, R164). -/
def State.halt (s : State) : State := { s with halted := true }

/-! ## Ports -/

/-- `InputByte()` (R9, R170): the next byte known to come, or a free one. -/
def State.inputByte (s : State) : Byte :=
  match s.input with
  | [] => Config.inputByte s.draws
  | b :: _ => b

/-- The state once that byte has been consumed: the list loses its head, or a free value has been drawn. -/
def State.consumeInput (s : State) : State :=
  { s with input := s.input.tail, draws := if s.input.isEmpty then s.draws + 1 else s.draws }

/-- `Output(row, v)` (R9, R170): the pair is appended to the output history. -/
def State.output (s : State) (row v : Byte) : State := { s with out := s.out ++ [(row, v)] }

end Sys2Proof.Machine
end

