-- ==== Sys2Proof/Machine/Operands.lean ====
section
/-!
DEFINITION. The operand forms (30_encoding.md R91 to R93): what the operand of each format stands for. An immediate, an
address and a row are the eight bits as they stand (R92); nothing is extended, scaled or added to `pc`.
-/
namespace Sys2Proof.Machine

/-- Format I as a data value: `imm` (R92). -/
def immOperand (imm : Byte) : Byte := imm

/-- Format I as an output row (R92, R172). -/
def rowOperand (row : Byte) : Byte := row

/-- Format A as a data address (R60, R92): absolute, no base, no index. -/
def dataAddress (addr : Byte) : Byte := addr

/-- Format A as a program address (R60, R160): absolute, not relative to `pc`. -/
def jumpTarget (addr : Byte) : Byte := addr

/-- Format R as a source: the register the code selects (R93). -/
def State.rnOperand (s : State) (rn : Reg) : Byte := s.reg rn

end Sys2Proof.Machine
end

