-- ==== Sys2Proof/Machine/Flags.lean ====
section
/-!
DEFINITION. The ALU (41_alu.md R140, table T-140): the eight operations, their 8-bit result and the two flags.
-/
namespace Sys2Proof.Machine

/-- The operations of the ALU, in the order of their ALU_OP codes (R97, T-103b). -/
inductive AluOp where
  | add | sub | and | or | xor | not | inc | dec
  deriving DecidableEq, Repr

/-- ALU_OP, "ALU OP 2-1-0" (T-103b). -/
def AluOp.code : AluOp → BitVec 3
  | .add => 0b000#3
  | .sub => 0b001#3
  | .and => 0b010#3
  | .or => 0b011#3
  | .xor => 0b100#3
  | .not => 0b101#3
  | .inc => 0b110#3
  | .dec => 0b111#3

/-- `zext_9` (R7). -/
def zext9 (v : Byte) : BitVec 9 := v.setWidth 9

/-- The 9-bit working value of T-140: the sum or the difference modulo 512. A logic command has none in the table; its
result stands here, with bit 8 zero. -/
def aluSum9 (op : AluOp) (w r : Byte) : BitVec 9 :=
  match op with
  | .add => zext9 w + zext9 r
  | .sub => zext9 w - zext9 r
  | .inc => zext9 w + 1
  | .dec => zext9 w - 1
  | .and => zext9 (w &&& r)
  | .or => zext9 (w ||| r)
  | .xor => zext9 (w ^^^ r)
  | .not => zext9 (~~~w)

/-- The 8-bit result (R140 (1)); NOT, INC and DEC do not look at `r`. -/
def aluResult (op : AluOp) (w r : Byte) : Byte := (aluSum9 op w r).setWidth 8

/-- `zeroF` (R140): the 8-bit result is 0x00. -/
def aluZero (op : AluOp) (w r : Byte) : Bool := aluResult op w r == 0x00#8

/-- Bit 8 of the 9-bit working value: the carry of a sum, the borrow of a difference (T-140). -/
def aluBit8 (op : AluOp) (w r : Byte) : Bool := (aluSum9 op w r).getLsbD 8

/-- `carryF` after a subtraction that borrowed or not (P_CARRY_SUB, T-140). -/
def carryOfBorrow (c : Config) (borrow : Bool) : Bool :=
  match c.carrySub with
  | .borrow => borrow
  | .notBorrow => !borrow

/-- `carryF` after a logic command (P_CARRY_LOGIC, T-140): `old` the flag before, `draws` the counter of free values. -/
def carryOfLogic (c : Config) (old : Bool) (draws : Nat) : Bool :=
  match c.carryLogic with
  | .clear => false
  | .unchanged => old
  | .any => Config.freeCarry draws

/-- `carryF` after INC or DEC (P_CARRY_INCDEC, T-140). -/
def carryOfIncDec (c : Config) (old asAddSub : Bool) : Bool :=
  match c.carryIncDec with
  | .asAddSub => asAddSub
  | .unchanged => old

/-- `carryF` after each ALU command (T-140). -/
def aluCarry (c : Config) (op : AluOp) (w r : Byte) (old : Bool) (draws : Nat) : Bool :=
  match op with
  | .add => aluBit8 .add w r
  | .sub => carryOfBorrow c (aluBit8 .sub w r)
  | .and => carryOfLogic c old draws
  | .or => carryOfLogic c old draws
  | .xor => carryOfLogic c old draws
  | .not => carryOfLogic c old draws
  | .inc => carryOfIncDec c old (aluBit8 .inc w r)
  | .dec => carryOfIncDec c old (carryOfBorrow c (aluBit8 .dec w r))

/-- The logic commands, whose carry P_CARRY_LOGIC gives (T-140). -/
def AluOp.isLogic : AluOp → Bool
  | .and => true
  | .or => true
  | .xor => true
  | .not => true
  | .add => false
  | .sub => false
  | .inc => false
  | .dec => false

/-- How many free values the command draws: one, for a logic command under P_CARRY_LOGIC = any. -/
def aluDraws (c : Config) (op : AluOp) : Nat := if op.isLogic && c.carryLogic == .any then 1 else 0

/-- The four things every ALU command does (R140), with `r` its second operand (not looked at by NOT, INC and DEC). Every
right-hand side reads the state before the command (R8). -/
def State.alu (s : State) (op : AluOp) (r : Byte) : State :=
  { s with
    w := aluResult op s.w r
    zeroF := aluZero op s.w r
    carryF := aluCarry s.config op s.w r s.carryF s.draws
    draws := s.draws + aluDraws s.config op
    pc := s.pcNext }

end Sys2Proof.Machine
end

