-- ==== Sys2Proof/Machine/AluCommands.lean ====
section
/-!
DEFINITION. The meanings of the ALU commands (41_alu.md): ADD, SUB, AND, OR, XOR, NOT, INC, DEC, each the shared operation
`State.alu` with its own ALU operation. NOT, INC and DEC have no second operand; the 0 given for it is not looked at.
-/
namespace Sys2Proof.Machine

/-- `ADD Wreg Rn` (R141). -/
def execAdd (rn : Reg) (s : State) : Host.Outcome State Fault Refusal :=
  .next (s.alu .add (s.rnOperand rn))

/-- `SUB Wreg Rn` (R142): `W - x[rn]`. -/
def execSub (rn : Reg) (s : State) : Host.Outcome State Fault Refusal :=
  .next (s.alu .sub (s.rnOperand rn))

/-- `AND Wreg Rn` (R143). -/
def execAnd (rn : Reg) (s : State) : Host.Outcome State Fault Refusal :=
  .next (s.alu .and (s.rnOperand rn))

/-- `OR Wreg Rn` (R144). -/
def execOr (rn : Reg) (s : State) : Host.Outcome State Fault Refusal :=
  .next (s.alu .or (s.rnOperand rn))

/-- `XOR Wreg Rn` (R145). -/
def execXor (rn : Reg) (s : State) : Host.Outcome State Fault Refusal :=
  .next (s.alu .xor (s.rnOperand rn))

/-- `NOT Wreg` (R146): the bitwise complement. -/
def execNot (s : State) : Host.Outcome State Fault Refusal :=
  .next (s.alu .not 0)

/-- `INC Wreg` (R147). -/
def execInc (s : State) : Host.Outcome State Fault Refusal :=
  .next (s.alu .inc 0)

/-- `DEC Wreg` (R148). -/
def execDec (s : State) : Host.Outcome State Fault Refusal :=
  .next (s.alu .dec 0)

end Sys2Proof.Machine
end

