-- ==== Sys2Proof/Machine/DataCommands.lean ====
section
/-!
DEFINITION. The meanings of the data commands (40_data.md): NOP, LOADI, LOADA, STORE, MOV, MOVW, SET, CLEAR. None writes a
flag, each advances `pc` (R128), and none reads its unused operand bits (R94).
-/
namespace Sys2Proof.Machine

/-- `NOP` (R120): no operation. -/
def execNop (s : State) : Host.Outcome State Fault Refusal :=
  .next s.advance

/-- `LOADI Wreg imm` (R121): `W <- imm`. -/
def execLoadi (imm : Byte) (s : State) : Host.Outcome State Fault Refusal :=
  .next (s.setW (immOperand imm)).advance

/-- `LOADA Wreg [addr]` (R122): `W <- RAM[addr]`. -/
def execLoada (addr : Byte) (s : State) : Host.Outcome State Fault Refusal :=
  .next (s.setW (s.ramRead (dataAddress addr))).advance

/-- `STORE Wreg [addr]` (R123): `RAM[addr] <- W`. -/
def execStore (addr : Byte) (s : State) : Host.Outcome State Fault Refusal :=
  .next (s.ramWrite (dataAddress addr) s.w).advance

/-- `MOV Wreg Rn` (R124): `W <- x[rn]`. The description is followed where the signal row drives no bus (D25, C5). -/
def execMov (rn : Reg) (s : State) : Host.Outcome State Fault Refusal :=
  .next (s.setW (s.rnOperand rn)).advance

/-- `MOVW Rn Wreg` (R125): `x[rn] <- W`. -/
def execMovw (rn : Reg) (s : State) : Host.Outcome State Fault Refusal :=
  .next (s.setReg rn s.w).advance

/-- `SET Wreg` (R126): `W <- 0xFF` (D25, C6). -/
def execSet (s : State) : Host.Outcome State Fault Refusal :=
  .next (s.setW 0xFF#8).advance

/-- `CLEAR Wreg` (R127): `W <- 0x00` (D25, C6). -/
def execClear (s : State) : Host.Outcome State Fault Refusal :=
  .next (s.setW 0x00#8).advance

end Sys2Proof.Machine
end

