-- ==== Sys2Proof/Machine/IoCommands.lean ====
section
/-!
DEFINITION. The meanings of the I/O commands (43_io.md): IN, OUT. Neither waits (R170), and both advance `pc` (D11), or
repeat under LITERAL_PC_SIGNALS.
-/
namespace Sys2Proof.Machine

/-- `IN Wreg` (R171): `W <- InputByte()`. -/
def execInp (s : State) : Host.Outcome State Fault Refusal :=
  .next (s.consumeInput.setW s.inputByte).advanceMarked

/-- `OUT Wreg imm` (R172): `Output(imm, W)`. -/
def execOut (row : Byte) (s : State) : Host.Outcome State Fault Refusal :=
  .next (s.output (rowOperand row) s.w).advanceMarked

end Sys2Proof.Machine
end

