-- ==== Sys2Proof/Machine/JumpCommands.lean ====
section
/-!
DEFINITION. The meanings of the jump commands (42_jump.md): JMP, JZ, JC, HLT. No delay slot (R160 (c)).
-/
namespace Sys2Proof.Machine

/-- `JMP [addr]` (R161): `pc <- addr`. -/
def execJmp (addr : Byte) (s : State) : Host.Outcome State Fault Refusal :=
  .next (s.setPc (jumpTarget addr))

/-- `JZ [addr]` (R162): taken when `zeroF` is 1; else it falls through (D10), or repeats under LITERAL_PC_SIGNALS. -/
def execJz (addr : Byte) (s : State) : Host.Outcome State Fault Refusal :=
  if s.zeroF then .next (s.setPc (jumpTarget addr)) else .next s.advanceMarked

/-- `JC [addr]` (R163): taken when `carryF` is 1; else as JZ. -/
def execJc (addr : Byte) (s : State) : Host.Outcome State Fault Refusal :=
  if s.carryF then .next (s.setPc (jumpTarget addr)) else .next s.advanceMarked

/-- `HLT` (R164): `halted <- 1`; `pc` keeps the address of the HLT. -/
def execHlt (s : State) : Host.Outcome State Fault Refusal :=
  .next s.halt

end Sys2Proof.Machine
end

