-- ==== Sys2Proof/Machine/Dispatch.lean ====
section
/-!
DEFINITION. One arm per instruction: its meaning.
-/
namespace Sys2Proof.Machine

/-- The effect of one instruction (30_encoding.md table T-95). -/
def exec (i : Instr) (s : State) : Host.Outcome State Fault Refusal :=
  match i with
  -- data commands
  | .nop _ => Sys2Proof.Machine.execNop s
  | .loadi imm => Sys2Proof.Machine.execLoadi imm s
  | .loada addr => Sys2Proof.Machine.execLoada addr s
  | .store addr => Sys2Proof.Machine.execStore addr s
  | .mov _ rn => Sys2Proof.Machine.execMov rn s
  | .movw _ rn => Sys2Proof.Machine.execMovw rn s
  | .set _ => Sys2Proof.Machine.execSet s
  | .clear _ => Sys2Proof.Machine.execClear s
  -- ALU commands
  | .add _ rn => Sys2Proof.Machine.execAdd rn s
  | .sub _ rn => Sys2Proof.Machine.execSub rn s
  | .and _ rn => Sys2Proof.Machine.execAnd rn s
  | .or _ rn => Sys2Proof.Machine.execOr rn s
  | .xor _ rn => Sys2Proof.Machine.execXor rn s
  | .not _ => Sys2Proof.Machine.execNot s
  | .inc _ => Sys2Proof.Machine.execInc s
  | .dec _ => Sys2Proof.Machine.execDec s
  -- jump commands
  | .jmp addr => Sys2Proof.Machine.execJmp addr s
  | .jz addr => Sys2Proof.Machine.execJz addr s
  | .jc addr => Sys2Proof.Machine.execJc addr s
  | .hlt _ => Sys2Proof.Machine.execHlt s
  -- I/O
  | .inp _ => Sys2Proof.Machine.execInp s
  | .out row => Sys2Proof.Machine.execOut row s

end Sys2Proof.Machine
end

