-- ==== Sys2Proof/WellFormed.lean ====
section
/-!
DEFINITION. When an instruction is well-formed: its encoding is the canonical one of 30_encoding.md R94 (00_scope.md
R13), that is, every operand bit it does not use is 0. An immediate, an address and a register name need no check: every
8-bit value and every register code is legal (60_exceptions.md R180).
-/
namespace Sys2Proof

/-- The operand bits the instruction does not use are all 0: the canonical encoding (R94). -/
def Instr.wellFormed : Instr → Bool
  | .nop u => u == 0
  | .loadi _ => true
  | .loada _ => true
  | .store _ => true
  | .mov u _ => u == 0
  | .movw u _ => u == 0
  | .set u => u == 0
  | .clear u => u == 0
  | .add u _ => u == 0
  | .sub u _ => u == 0
  | .and u _ => u == 0
  | .or u _ => u == 0
  | .xor u _ => u == 0
  | .not u => u == 0
  | .inc u => u == 0
  | .dec u => u == 0
  | .jmp _ => true
  | .jz _ => true
  | .jc _ => true
  | .hlt u => u == 0
  | .inp u => u == 0
  | .out _ => true

end Sys2Proof
end

