-- ==== Sys2Proof/Decode.lean ====
section
/-!
DEFINITION. Decoding and encoding of the 13-bit instruction word (30_encoding.md R90 to R107), and the assembly spelling
of an instruction (R100). Decoding depends on the word alone, but for STRICT_OPERANDS, and refuses by name (R106).
-/
namespace Sys2Proof

/-- `iw[12:8]`, the 5 MSB of the instruction (R90). -/
def opcodeField (iw : Iw) : Opcode := iw.extractLsb' 8 5

/-- `iw[7:0]`, the 8 LSB of the instruction (R90). -/
def operandField (iw : Iw) : Byte := iw.extractLsb' 0 8

/-- `operand[2:0]`, the register code (R93). -/
def regCodeField (operand : Byte) : BitVec 3 := operand.extractLsb' 0 3

/-- `operand[7:3]`, not used by a format-R instruction (R94). -/
def unusedField (operand : Byte) : BitVec 5 := operand.extractLsb' 3 5

/-- The register a 3-bit code selects (T-23). -/
def Reg.ofCode (c : BitVec 3) : Reg :=
  match c with
  | 0b000#3 => .r0
  | 0b001#3 => .r1
  | 0b010#3 => .r2
  | 0b011#3 => .r3
  | 0b100#3 => .r4
  | 0b101#3 => .sp
  | 0b110#3 => .md
  | 0b111#3 => .ma

/-- The code of a register (T-23). -/
def Reg.code : Reg → BitVec 3
  | .r0 => 0b000#3
  | .r1 => 0b001#3
  | .r2 => 0b010#3
  | .r3 => 0b011#3
  | .r4 => 0b100#3
  | .sp => 0b101#3
  | .md => 0b110#3
  | .ma => 0b111#3

/-- The instruction of an opcode with an operand byte (T-95, R91 to R93); none for the ten unassigned opcodes. -/
def instrOf (opcode : Opcode) (operand : Byte) : Option Instr :=
  match opcode with
  | 0b00000#5 => some (.nop operand)
  | 0b00001#5 => some (.loadi operand)
  | 0b00010#5 => some (.loada operand)
  | 0b00011#5 => some (.store operand)
  | 0b00100#5 => some (.mov (unusedField operand) (.ofCode (regCodeField operand)))
  | 0b00101#5 => some (.movw (unusedField operand) (.ofCode (regCodeField operand)))
  | 0b00110#5 => some (.set operand)
  | 0b00111#5 => some (.clear operand)
  | 0b01000#5 => some (.add (unusedField operand) (.ofCode (regCodeField operand)))
  | 0b01001#5 => some (.sub (unusedField operand) (.ofCode (regCodeField operand)))
  | 0b01010#5 => some (.and (unusedField operand) (.ofCode (regCodeField operand)))
  | 0b01011#5 => some (.or (unusedField operand) (.ofCode (regCodeField operand)))
  | 0b01100#5 => some (.xor (unusedField operand) (.ofCode (regCodeField operand)))
  | 0b01101#5 => some (.not operand)
  | 0b01110#5 => some (.inc operand)
  | 0b01111#5 => some (.dec operand)
  | 0b10000#5 => some (.jmp operand)
  | 0b10001#5 => some (.jz operand)
  | 0b10010#5 => some (.jc operand)
  | 0b10011#5 => some (.hlt operand)
  | 0b10100#5 => some (.inp operand)
  | 0b10101#5 => some (.out operand)
  | _ => none

/-- Why a word is refused (R96, R94), with the word. -/
inductive DecodeError where
  /-- The opcode is one of 0x16 to 0x1F (R96). -/
  | illegalOpcode (iw : Iw)
  /-- Under STRICT_OPERANDS, an operand bit the instruction does not use is 1 (R94). -/
  | nonCanonicalOperand (iw : Iw)
  deriving DecidableEq, Repr

/-- Decoding, total on the 8,192 words (R106). `strict` is STRICT_OPERANDS. A word with an unassigned opcode has no
format, so the operand check does not apply to it (R182). -/
def decode (strict : Bool) (iw : Iw) : Except DecodeError Instr :=
  match instrOf (opcodeField iw) (operandField iw) with
  | none => .error (.illegalOpcode iw)
  | some i => if strict && !i.wellFormed then .error (.nonCanonicalOperand iw) else .ok i

/-- The opcode of an instruction (T-95). -/
def Instr.opcode : Instr → Opcode
  | .nop _ => 0x00#5
  | .loadi _ => 0x01#5
  | .loada _ => 0x02#5
  | .store _ => 0x03#5
  | .mov _ _ => 0x04#5
  | .movw _ _ => 0x05#5
  | .set _ => 0x06#5
  | .clear _ => 0x07#5
  | .add _ _ => 0x08#5
  | .sub _ _ => 0x09#5
  | .and _ _ => 0x0A#5
  | .or _ _ => 0x0B#5
  | .xor _ _ => 0x0C#5
  | .not _ => 0x0D#5
  | .inc _ => 0x0E#5
  | .dec _ => 0x0F#5
  | .jmp _ => 0x10#5
  | .jz _ => 0x11#5
  | .jc _ => 0x12#5
  | .hlt _ => 0x13#5
  | .inp _ => 0x14#5
  | .out _ => 0x15#5

/-- The operand byte of a format-R instruction: the unused bits above the register code (R105). -/
def operandR (unused : BitVec 5) (rn : Reg) : Byte := unused ++ rn.code

/-- The operand byte of an instruction (R91, R105). -/
def Instr.operand : Instr → Byte
  | .nop u => u
  | .loadi imm => imm
  | .loada addr => addr
  | .store addr => addr
  | .mov u rn => operandR u rn
  | .movw u rn => operandR u rn
  | .set u => u
  | .clear u => u
  | .add u rn => operandR u rn
  | .sub u rn => operandR u rn
  | .and u rn => operandR u rn
  | .or u rn => operandR u rn
  | .xor u rn => operandR u rn
  | .not u => u
  | .inc u => u
  | .dec u => u
  | .jmp addr => addr
  | .jz addr => addr
  | .jc addr => addr
  | .hlt u => u
  | .inp u => u
  | .out row => row

/-- The word of an instruction, `opcode ++ operand` (R105). -/
def encode (i : Instr) : Iw := i.opcode ++ i.operand

/-- The four operand formats (R91). -/
inductive Format where
  | n | i | a | r
  deriving DecidableEq, Repr

/-- The format of an instruction (T-91). -/
def Instr.format : Instr → Format
  | .nop _ => .n
  | .loadi _ => .i
  | .loada _ => .a
  | .store _ => .a
  | .mov _ _ => .r
  | .movw _ _ => .r
  | .set _ => .n
  | .clear _ => .n
  | .add _ _ => .r
  | .sub _ _ => .r
  | .and _ _ => .r
  | .or _ _ => .r
  | .xor _ _ => .r
  | .not _ => .n
  | .inc _ => .n
  | .dec _ => .n
  | .jmp _ => .a
  | .jz _ => .a
  | .jc _ => .a
  | .hlt _ => .n
  | .inp _ => .n
  | .out _ => .i

/-- The mask under which a word of the format is canonical (R107). -/
def Format.canonicalMask : Format → Iw
  | .n => 0x1FFF#13
  | .r => 0x1FF8#13
  | .i => 0x1F00#13
  | .a => 0x1F00#13

/-- The host's numbering of a table row's bits: the one instruction word is bits 12..0, and a number that has a bit
above them is no word of this machine (log entry 14). -/
def decodeTableWord (nbits w : Nat) : Option Instr :=
  if w % 2 ^ nbits < 2 ^ 13 then (decode false (BitVec.ofNat 13 (w % 2 ^ nbits))).toOption else none

/-- One hexadecimal digit, as the spec writes it. -/
def hexDigit (d : BitVec 4) : Char :=
  match d with
  | 0#4 => '0' | 1#4 => '1' | 2#4 => '2' | 3#4 => '3'
  | 4#4 => '4' | 5#4 => '5' | 6#4 => '6' | 7#4 => '7'
  | 8#4 => '8' | 9#4 => '9' | 10#4 => 'A' | 11#4 => 'B'
  | 12#4 => 'C' | 13#4 => 'D' | 14#4 => 'E' | _ => 'F'

/-- A byte written `0x..`, two digits (R100). -/
def asmByte (b : Byte) : List Char := ['0', 'x', hexDigit (b.extractLsb' 4 4), hexDigit (b.extractLsb' 0 4)]

/-- A register's name in assembly (R100). -/
def Reg.asm : Reg → List Char
  | .r0 => ['R', '0']
  | .r1 => ['R', '1']
  | .r2 => ['R', '2']
  | .r3 => ['R', '3']
  | .r4 => ['R', '4']
  | .sp => ['S', 'P']
  | .md => ['M', 'D']
  | .ma => ['M', 'A']

/-- ` Wreg`, with the space before it (R100). -/
def asmWreg : List Char := [' ', 'W', 'r', 'e', 'g']

/-- ` [addr]`, with the space before it (R100). -/
def asmAddr (a : Byte) : List Char := [' ', '['] ++ asmByte a ++ [']']

/-- The assembly spelling of an instruction, as the opcode tables write it (R100, T-95). The unused operand bits have no
spelling. -/
def Instr.asm : Instr → List Char
  | .nop _ => ['N', 'O', 'P']
  | .loadi imm => ['L', 'O', 'A', 'D', 'I'] ++ asmWreg ++ ' ' :: asmByte imm
  | .loada addr => ['L', 'O', 'A', 'D', 'A'] ++ asmWreg ++ asmAddr addr
  | .store addr => ['S', 'T', 'O', 'R', 'E'] ++ asmWreg ++ asmAddr addr
  | .mov _ rn => ['M', 'O', 'V'] ++ asmWreg ++ ' ' :: rn.asm
  | .movw _ rn => ['M', 'O', 'V', 'W', ' '] ++ rn.asm ++ asmWreg
  | .set _ => ['S', 'E', 'T'] ++ asmWreg
  | .clear _ => ['C', 'L', 'E', 'A', 'R'] ++ asmWreg
  | .add _ rn => ['A', 'D', 'D'] ++ asmWreg ++ ' ' :: rn.asm
  | .sub _ rn => ['S', 'U', 'B'] ++ asmWreg ++ ' ' :: rn.asm
  | .and _ rn => ['A', 'N', 'D'] ++ asmWreg ++ ' ' :: rn.asm
  | .or _ rn => ['O', 'R'] ++ asmWreg ++ ' ' :: rn.asm
  | .xor _ rn => ['X', 'O', 'R'] ++ asmWreg ++ ' ' :: rn.asm
  | .not _ => ['N', 'O', 'T'] ++ asmWreg
  | .inc _ => ['I', 'N', 'C'] ++ asmWreg
  | .dec _ => ['D', 'E', 'C'] ++ asmWreg
  | .jmp addr => ['J', 'M', 'P'] ++ asmAddr addr
  | .jz addr => ['J', 'Z'] ++ asmAddr addr
  | .jc addr => ['J', 'C'] ++ asmAddr addr
  | .hlt _ => ['H', 'L', 'T']
  | .inp _ => ['I', 'N'] ++ asmWreg
  | .out row => ['O', 'U', 'T'] ++ asmWreg ++ ' ' :: asmByte row

end Sys2Proof
end

