-- ==== Sys2Proof/Machine/Fetch.lean ====
section
/-!
DEFINITION. Fetching the word at `pc` and choosing the instruction it is (10_state.md R27), under STRICT_OPERANDS and
ILLEGAL_OPCODE_POLICY (60_exceptions.md T-181); and placing a word where the next fetch reads it.
-/
namespace Sys2Proof.Machine

/-- The word the next step fetches, `ROM[pc]` (R27). -/
def State.fetchWord (s : State) : Iw := s.romRead s.pc

/-- What a word does under the parameters (T-181): an instruction, or a model fault. Under ILLEGAL_OPCODE_POLICY = nop an
unassigned opcode executes as NOP. -/
def instrUnder (c : Config) (iw : Iw) : Except Fault Instr :=
  match decode c.strictOperands iw with
  | .ok i => .ok i
  | .error (.nonCanonicalOperand v) => .error (.nonCanonicalOperand v)
  | .error (.illegalOpcode v) =>
    match c.illegalPolicy with
    | .fault => .error (.illegalOpcode v)
    | .nop => .ok (.nop 0)

/-- The instruction the next step runs, or the model fault it meets. -/
def State.fetchInstr (s : State) : Except Fault Instr := instrUnder s.config s.fetchWord

/-- The state with a word placed where the next step fetches, and the machine not halted (a halted machine fetches
nothing, R33). The words of the host's numbering have at most 13 bits (log entries 13 and 14). -/
def State.placeWord (s : State) (iw : Iw) : State := { s.romLoad s.pc iw with halted := false }

end Sys2Proof.Machine
end

