-- ==== Sys2Proof/Machine/Step.lean ====
section
/-!
DEFINITION. One step of the machine (10_state.md R27) and the host's way to place an instruction.
-/
namespace Sys2Proof.Machine

/-- One architectural step (R27): none in a halted state (R33); else fetch, select the instruction, execute it. -/
def step (s : State) : Host.Outcome State Fault Refusal :=
  match s.halted with
  | true => .fault .halted
  | false =>
    match s.fetchInstr with
    | .error f => .fault f
    | .ok i => exec i s

/-- `s` with the instruction of the host's numbering stored where `step` fetches next: at `ROM[pc]`, the machine not
halted (log entry 13). -/
def State.withFetchWord (s : State) (nbits w : Nat) : State := s.placeWord (BitVec.ofNat 13 (w % 2 ^ nbits))

end Sys2Proof.Machine
end

