-- ==== Sys2Proof/Machine/Control.lean ====
section
/-!
DEFINITION. The control unit (10_state.md R42): its 16 outputs with their value for every instruction, cell for cell as
the source's tables have them (30_encoding.md R103, tables T-103a to T-103d), the cells of R104 included. The rows are a
function of the instruction and the two flags; the instructions' effects are their own rules, not these rows (R102).
-/
namespace Sys2Proof.Machine

/-- The 16 control signals, in the source's order (R42). `none` stands for the source's "–", a value it does not state. -/
structure Signals where
  wregWE : Bool
  wregRE : Bool
  regWE : Bool
  regSel : Option Reg
  ramRE : Bool
  ramWE : Bool
  ramAddrEN : Bool
  aluOP : Option AluOp
  aluEN : Bool
  pcLoad : Bool
  pcEN : Bool
  romToDatabus : Bool
  rnToDatabus : Bool
  inToDatabus : Bool
  outEN : Bool
  halt : Bool
  deriving DecidableEq, Repr

/-- Every signal 0, REG_SEL and ALU_OP "–". -/
def Signals.idle : Signals where
  wregWE := false
  wregRE := false
  regWE := false
  regSel := none
  ramRE := false
  ramWE := false
  ramAddrEN := false
  aluOP := none
  aluEN := false
  pcLoad := false
  pcEN := false
  romToDatabus := false
  rnToDatabus := false
  inToDatabus := false
  outEN := false
  halt := false

/-- The row of an ALU command (T-103b). -/
def Signals.aluRow (op : AluOp) (sel : Option Reg) : Signals :=
  { Signals.idle with wregWE := true, regSel := sel, aluOP := some op, aluEN := true, pcEN := true }

/-- The signal row of an instruction, with the flags as the control unit's inputs (T-103a to T-103d). -/
def signals (i : Instr) (zeroF carryF : Bool) : Signals :=
  match i with
  | .nop _ => { Signals.idle with pcEN := true }
  | .loadi _ => { Signals.idle with wregWE := true, pcEN := true, romToDatabus := true }
  | .loada _ => { Signals.idle with wregWE := true, ramRE := true, ramAddrEN := true, pcEN := true }
  | .store _ => { Signals.idle with wregRE := true, ramWE := true, ramAddrEN := true, pcEN := true }
  | .mov _ rn => { Signals.idle with wregWE := true, regSel := some rn, pcEN := true }
  | .movw _ rn => { Signals.idle with wregRE := true, regWE := true, regSel := some rn, pcEN := true }
  | .set _ => { Signals.idle with wregWE := true, pcEN := true }
  | .clear _ => { Signals.idle with wregWE := true, pcEN := true }
  | .add _ rn => Signals.aluRow .add (some rn)
  | .sub _ rn => Signals.aluRow .sub (some rn)
  | .and _ rn => Signals.aluRow .and (some rn)
  | .or _ rn => Signals.aluRow .or (some rn)
  | .xor _ rn => Signals.aluRow .xor (some rn)
  | .not _ => Signals.aluRow .not none
  | .inc _ => Signals.aluRow .inc none
  | .dec _ => Signals.aluRow .dec none
  | .jmp _ => { Signals.idle with pcLoad := true, romToDatabus := true }
  | .jz _ => { Signals.idle with pcLoad := zeroF, romToDatabus := true }
  | .jc _ => { Signals.idle with pcLoad := carryF, romToDatabus := true }
  | .hlt _ => { Signals.idle with halt := true }
  | .inp _ => { Signals.idle with wregWE := true, inToDatabus := true }
  | .out _ => { Signals.idle with wregRE := true, outEN := true }

end Sys2Proof.Machine
end

