-- ==== Sys2Proof/Machine/Datapath.lean ====
section
/-!
DEFINITION. One clock of the data path that the control signals drive, by the meanings of 30_encoding.md table T-102 and
the component lists of 10_state.md R41 and R42. The step of the machine does not use it (R102: the instructions' own rules
define their effects); it is the second description the spec gives of the same machine, and the statements compare the two.
-/
namespace Sys2Proof.Machine

/-- The register file's `dataOut`, and the ALU's input Rn: the register REG_SEL selects. Where the row has "–" nothing
depends on it, and 0 stands there. -/
def selectedReg (sel : Option Reg) (s : State) : Byte :=
  match sel with
  | some rn => s.reg rn
  | none => 0

/-- The address on the RAM's `addr` input: the operand under RAM_ADDR_EN; without it no row reads or writes the RAM. -/
def ramAddr (sig : Signals) (operand : Byte) : Byte := if sig.ramAddrEN then operand else 0

/-- Some signal drives the data bus (R40). -/
def busDriven (sig : Signals) : Bool :=
  sig.romToDatabus || sig.rnToDatabus || sig.inToDatabus || sig.wregRE || sig.ramRE || sig.aluEN

/-- The data bus (R40): the one source whose enable is set; a free value where none is (log entry 12). -/
def dataBus (sig : Signals) (operand : Byte) (s : State) : Byte :=
  if sig.romToDatabus then operand
  else if sig.rnToDatabus then selectedReg sig.regSel s
  else if sig.inToDatabus then s.inputByte
  else if sig.wregRE then s.w
  else if sig.ramRE then s.ramRead (ramAddr sig operand)
  else
    match sig.aluEN, sig.aluOP with
    | true, some op => aluResult op s.w (selectedReg sig.regSel s)
    | _, _ => Config.undrivenBus s.draws

/-- ALU_EN: the flags take the ALU's outputs (T-102), with the free values that takes. -/
def datapathFlags (sig : Signals) (s t : State) : State :=
  match sig.aluEN, sig.aluOP with
  | true, some op =>
    { t with
      zeroF := aluZero op s.w (selectedReg sig.regSel s)
      carryF := aluCarry s.config op s.w (selectedReg sig.regSel s) s.carryF s.draws
      draws := s.draws + aluDraws s.config op }
  | _, _ => t

/-- One clock: every destination whose enable is set takes the bus; PC_LOAD and PC_EN move `pc`; HALT halts. The row of
an OUT reaches the port beside the bus, by the path the signal list does not name (R104, N12). -/
def datapath (sig : Signals) (operand : Byte) (s : State) : State :=
  let bus := dataBus sig operand s
  let s1 := if sig.inToDatabus then s.consumeInput else s
  let s2 := if sig.wregWE then s1.setW bus else s1
  let s3 := match sig.regWE, sig.regSel with
    | true, some rn => s2.setReg rn bus
    | _, _ => s2
  let s4 := if sig.ramWE then s3.ramWrite (ramAddr sig operand) bus else s3
  let s5 := datapathFlags sig s s4
  let s6 := if sig.outEN then s5.output operand bus else s5
  let s7 := if sig.pcLoad then s6.setPc bus else if sig.pcEN then s6.setPc s.pcNext else s6
  if sig.halt then s7.halt else s7

end Sys2Proof.Machine
end

