-- ==== Sys2Proof/Machine/Launch.lean ====
section
/-!
DEFINITION. Reset for every value of the launch inputs (00_scope.md R5 table T-5b, 10_state.md R43 table T-43): what the
spec leaves unspecified is an input, so a claim about a program can be made for all of them. `State.reset` is one of these
states.
-/
namespace Sys2Proof.Machine

/-- The launch inputs (T-5b). The functions are total over their addresses and codes (R74); this is no state. -/
structure Launch where
  /-- RESET_PC -/
  resetPc : Byte
  /-- INIT_W -/
  initW : Byte
  /-- INIT_X -/
  initX : Reg → Byte
  /-- INIT_ZEROF -/
  initZeroF : Bool
  /-- INIT_CARRYF -/
  initCarryF : Bool
  /-- INIT_RAM -/
  initRam : Byte → Byte
  /-- ROM_IMAGE -/
  romImage : Byte → Iw
  /-- INPUT, as far as it is known beforehand -/
  input : List Byte
  /-- the parameters a step reads -/
  config : Config

/-- The canonical list of a whole RAM. -/
def ramOfImage (f : Byte → Byte) : List Host.Cell := cellsOf ramUnlisted (fun a => f (BitVec.ofNat 8 a)) 256 0

/-- The canonical list of a whole ROM image. -/
def romOfImage (f : Byte → Iw) : List (Nat × Iw) := cellsOf romUnlisted (fun a => f (BitVec.ofNat 8 a)) 256 0

/-- The launch state (T-43, R13). -/
def launch (l : Launch) : State where
  w := l.initW
  x := ⟨l.initX .r0, l.initX .r1, l.initX .r2, l.initX .r3, l.initX .r4, l.initX .sp, l.initX .md, l.initX .ma⟩
  pc := l.resetPc
  zeroF := l.initZeroF
  carryF := l.initCarryF
  halted := false
  ram := ramOfImage l.initRam
  rom := romOfImage l.romImage
  out := []
  input := l.input
  draws := 0
  config := l.config

/-- A reset after an earlier run (R43, R210): the launch state, but for the ROM, which reset does not change, and the
parameters, which are the machine's. The counter of free values goes on, so that no draw is repeated. -/
def State.restart (s : State) (l : Launch) : State :=
  { launch l with rom := s.rom, config := s.config, draws := s.draws }

/-- The launch inputs at the values the model names for `State.reset` (log entries 2 to 8). -/
def Launch.named : Launch where
  resetPc := 0
  initW := 0
  initX := fun _ => 0
  initZeroF := false
  initCarryF := false
  initRam := fun _ => ramUnlisted
  romImage := fun _ => romUnlisted
  input := []
  config := Config.default

end Sys2Proof.Machine
end

