-- ==== Sys2Proof/Safety.lean ====
section
/-!
DEFINITION. The words the statements use: what a step keeps, the spec's tables of what each instruction reads and writes
(10_state.md T-25), which carry is kept (41_alu.md T-140) and where `pc` goes (T-28), runs, and what counts as a safe run.
-/
namespace Sys2Proof.Machine

/-! ## What a step keeps, field by field -/

/-- W is as before. -/
def KeepsW (s t : State) : Prop := t.w = s.w

/-- Every register of the file reads as before. -/
def KeepsFile (s t : State) : Prop := ∀ r : Reg, t.reg r = s.reg r

/-- Both flags are as before. -/
def KeepsFlags (s t : State) : Prop := t.zeroF = s.zeroF ∧ t.carryF = s.carryF

/-- Every RAM cell reads as before. -/
def KeepsRam (s t : State) : Prop := ∀ a : Byte, t.ramRead a = s.ramRead a

/-- Every ROM word reads as before, and the parameters are the same: no instruction writes either (R35). -/
def KeepsProgram (s t : State) : Prop := (∀ a : Byte, t.romRead a = s.romRead a) ∧ t.config = s.config

/-- The output history, the known input and the counter of free values are as before. -/
def KeepsPorts (s t : State) : Prop := t.out = s.out ∧ t.input = s.input ∧ t.draws = s.draws

/-- The machine is halted exactly if it was. -/
def KeepsHalted (s t : State) : Prop := t.halted = s.halted

/-- What the four logic commands do beside writing their result (R140, T-140): `zeroF` from the result, `carryF` by
P_CARRY_LOGIC, one free value drawn where it is `any`, `pc` to the next address, and nothing else. -/
def LogicCommandRest (s t : State) : Prop :=
  (t.zeroF = true ↔ t.w = 0) ∧
  (t.carryF = match s.config.carryLogic with
    | .clear => false
    | .unchanged => s.carryF
    | .any => Config.freeCarry s.draws) ∧
  (t.draws = match s.config.carryLogic with
    | .clear => s.draws
    | .unchanged => s.draws
    | .any => s.draws + 1) ∧
  t.pc = s.pc + 1 ∧ t.out = s.out ∧ t.input = s.input ∧
  KeepsFile s t ∧ KeepsRam s t ∧ KeepsProgram s t ∧ KeepsHalted s t

/-! ## The spec's tables over all instructions -/

/-- One row of T-25: what an instruction reads and writes. -/
structure Access where
  readsW : Bool
  writesW : Bool
  readsFile : Bool
  writesFile : Bool
  readsZeroF : Bool
  readsCarryF : Bool
  writesFlags : Bool
  deriving DecidableEq, Repr

/-- The row of an instruction that touches none of them. -/
def Access.none : Access := ⟨false, false, false, false, false, false, false⟩

/-- T-25. -/
def accessOf : Instr → Access
  | .nop _ => .none
  | .loadi _ => { Access.none with writesW := true }
  | .loada _ => { Access.none with writesW := true }
  | .store _ => { Access.none with readsW := true }
  | .mov _ _ => { Access.none with writesW := true, readsFile := true }
  | .movw _ _ => { Access.none with readsW := true, writesFile := true }
  | .set _ => { Access.none with writesW := true }
  | .clear _ => { Access.none with writesW := true }
  | .add _ _ => { Access.none with readsW := true, writesW := true, readsFile := true, writesFlags := true }
  | .sub _ _ => { Access.none with readsW := true, writesW := true, readsFile := true, writesFlags := true }
  | .and _ _ => { Access.none with readsW := true, writesW := true, readsFile := true, writesFlags := true }
  | .or _ _ => { Access.none with readsW := true, writesW := true, readsFile := true, writesFlags := true }
  | .xor _ _ => { Access.none with readsW := true, writesW := true, readsFile := true, writesFlags := true }
  | .not _ => { Access.none with readsW := true, writesW := true, writesFlags := true }
  | .inc _ => { Access.none with readsW := true, writesW := true, writesFlags := true }
  | .dec _ => { Access.none with readsW := true, writesW := true, writesFlags := true }
  | .jmp _ => .none
  | .jz _ => { Access.none with readsZeroF := true }
  | .jc _ => { Access.none with readsCarryF := true }
  | .hlt _ => .none
  | .inp _ => { Access.none with writesW := true }
  | .out _ => { Access.none with readsW := true }

/-- T-140's "keeps its value": an instruction after which carryF is what it was before. The logic commands under
P_CARRY_LOGIC = unchanged, INC and DEC under P_CARRY_INCDEC = unchanged, ADD and SUB never; and every instruction that is no
ALU command (R31). -/
def keepsCarry (c : Config) : Instr → Bool
  | .add _ _ => false
  | .sub _ _ => false
  | .and _ _ => c.carryLogic == .unchanged
  | .or _ _ => c.carryLogic == .unchanged
  | .xor _ _ => c.carryLogic == .unchanged
  | .not _ => c.carryLogic == .unchanged
  | .inc _ => c.carryIncDec == .unchanged
  | .dec _ => c.carryIncDec == .unchanged
  | .nop _ => true
  | .loadi _ => true
  | .loada _ => true
  | .store _ => true
  | .mov _ _ => true
  | .movw _ _ => true
  | .set _ => true
  | .clear _ => true
  | .jmp _ => true
  | .jz _ => true
  | .jc _ => true
  | .hlt _ => true
  | .inp _ => true
  | .out _ => true

/-- T-28: `pc` after an instruction, from the state before it. -/
def pcAfter (i : Instr) (s : State) : Byte :=
  match i with
  | .jmp addr => addr
  | .jz addr => if s.zeroF then addr else if s.config.literalPcSignals then s.pc else s.pc + 1
  | .jc addr => if s.carryF then addr else if s.config.literalPcSignals then s.pc else s.pc + 1
  | .hlt _ => s.pc
  | .inp _ => if s.config.literalPcSignals then s.pc else s.pc + 1
  | .out _ => if s.config.literalPcSignals then s.pc else s.pc + 1
  | .nop _ => s.pc + 1
  | .loadi _ => s.pc + 1
  | .loada _ => s.pc + 1
  | .store _ => s.pc + 1
  | .mov _ _ => s.pc + 1
  | .movw _ _ => s.pc + 1
  | .set _ => s.pc + 1
  | .clear _ => s.pc + 1
  | .add _ _ => s.pc + 1
  | .sub _ _ => s.pc + 1
  | .and _ _ => s.pc + 1
  | .or _ _ => s.pc + 1
  | .xor _ _ => s.pc + 1
  | .not _ => s.pc + 1
  | .inc _ => s.pc + 1
  | .dec _ => s.pc + 1

/-! ## Sequences and runs -/

/-- Executing a list of instructions one after the other, wherever they come from. -/
def execAll : List Instr → State → Host.Outcome State Fault Refusal
  | [], s => .next s
  | i :: is, s =>
    match exec i s with
    | .next t => execAll is t
    | .fault f => .fault f
    | .refused r => .refused r

/-- `k` steps from `s` lead to `t`. -/
def RunsTo (k : Nat) (s t : State) : Prop := Host.Core.run Sys2Proof.core k s = .next t

/-- A state in which a run has ended (R213). -/
def Final (s : State) : Prop := s.halted = true

/-- A safe run from `s`: however long it goes on, it meets no model fault of R10; it may end by HLT. -/
def SafeRun (s : State) : Prop :=
  ∀ (k : Nat) (t : State), RunsTo k s t → ∀ f : Fault, step t = .fault f → f = .halted

end Sys2Proof.Machine
end

