-- ==== Sys2Proof/Certificates/Slice0/Obligations.lean ====
section
/-!
DEFINITION. The statements about the machine, for the provers. Each docstring names the rule or section of spec/ it
formalises; where a clause rests on a decision of the spec (92_eei_decisions.md) or on an entry of the assumption log, it
says so.
-/
open Sys2Proof Sys2Proof.Machine

/-! ## Encoding -/

/-- Every instruction decodes back from its word, with every operand and every unused bit at every value; under
STRICT_OPERANDS exactly the non-canonical ones are refused (30_encoding.md sections 2 and 7; the reading of unused bits is
the spec's decision D12). That an instruction carries its unused bits, so that they too come back, is the model's choice,
log entry 18. -/
def Obligations.DecodeOfEncodeIsTheInstruction : Prop :=
  (∀ i : Instr, decode false (encode i) = .ok i) ∧
  (∀ i : Instr, decode true (encode i) = if i.wellFormed then .ok i else .error (.nonCanonicalOperand (encode i)))

/-- Every word that decodes is the encoding of what it decodes to. For a canonical word this is the encoding of
30_encoding.md section 7; for a non-canonical one, and so that no two words decode to one term of Instr, it is the model's
choice, log entry 18 (Instr carries the unused bits). In the spec's own naming two such words are one instruction: 0x0803
and 0x080B are both ADD Wreg R3 (95_test_vectors.md section 2.1), `.add 0 .r3` and `.add 1 .r3` here. -/
def Obligations.EncodeOfDecodeIsTheWord : Prop :=
  ∀ (strict : Bool) (iw : Iw) (i : Instr), decode strict iw = .ok i → encode i = iw

/-- The words 0x1600 to 0x1FFF, and no others, decode to "illegal" (30_encoding.md section 3, decision D13); every other
word decodes to an instruction when STRICT_OPERANDS is false. -/
def Obligations.UnassignedOpcodesAreIllegal : Prop :=
  ∀ iw : Iw,
    (∀ strict : Bool, decode strict iw = .error (.illegalOpcode iw) ↔ 0x1600 ≤ iw.toNat) ∧
    ((∃ i : Instr, decode false iw = .ok i) ↔ iw.toNat < 0x1600)

/-- Under STRICT_OPERANDS a word with an assigned opcode is refused exactly if it is not `match` under the canonical mask
of its format (30_encoding.md sections 2 and 7, decision D12). -/
def Obligations.StrictRefusesExactlyNonCanonicalWords : Prop :=
  ∀ (iw : Iw) (i : Instr), decode false iw = .ok i →
    (decode true iw = .error (.nonCanonicalOperand iw) ↔ iw &&& i.format.canonicalMask ≠ i.opcode ++ (0x00#8 : Byte))

/-- The unused operand bits do nothing: a word acts as the canonical word that agrees with it on the bits it uses
(30_encoding.md section 2, decision D12). -/
def Obligations.UnusedOperandBitsHaveNoEffect : Prop :=
  ∀ (iw : Iw) (i : Instr), decode false iw = .ok i →
    ∃ j : Instr, decode false (iw &&& (0x1F00#13 ||| ~~~i.format.canonicalMask)) = .ok j ∧ j.wellFormed = true ∧
      ∀ s : State, exec i s = exec j s

/-- R105, whole: the word is `(opcode << 8) | operand`, that is `opcode ++ operand`; the operand byte of a canonical word
by its format; the five words given as examples; the largest word. -/
def Obligations.WordIsOpcodeThenOperand : Prop :=
  (∀ i : Instr, encode i = i.opcode ++ i.operand ∧
    encode i = ((i.opcode.setWidth 13) <<< 8) ||| (i.operand.setWidth 13)) ∧
  (∀ i : Instr, i.wellFormed = true →
    match i with
    | .nop _ | .set _ | .clear _ | .not _ | .inc _ | .dec _ | .hlt _ | .inp _ => i.operand = 0x00#8
    | .loadi imm | .out imm => i.operand = imm
    | .loada addr | .store addr | .jmp addr | .jz addr | .jc addr => i.operand = addr
    | .mov _ rn | .movw _ rn | .add _ rn | .sub _ rn | .and _ rn | .or _ rn | .xor _ rn =>
      i.operand = 0b00000#5 ++ rn.code) ∧
  encode (.loadi 0x2A) = 0x012A#13 ∧ encode (.add 0 .r3) = 0x0803#13 ∧ encode (.jz 0x40) = 0x1140#13 ∧
  encode (.hlt 0) = 0x1300#13 ∧ encode (.out 0x07) = 0x1507#13 ∧
  (∀ iw : Iw, iw.toNat ≤ 0x1FFF) ∧ (0x1FFF#13 : Iw).toNat = 0x1FFF

/-- One 13-bit word, `opcode = iw[12:8]`, `operand = iw[7:0]`, and no other field (30_encoding.md section 1); and what a
word decodes to has these two fields. The last clause follows the decoding rule of section 7, which the spec derives; that
it holds of the unused bits too is the model's choice, log entry 18 (Instr carries them). -/
def Obligations.FieldsOfTheInstructionWord : Prop :=
  (∀ (iw : Iw) (k : Nat), k < 5 → (opcodeField iw).getLsbD k = iw.getLsbD (8 + k)) ∧
  (∀ (iw : Iw) (k : Nat), k < 8 → (operandField iw).getLsbD k = iw.getLsbD k) ∧
  (∀ iw jw : Iw, opcodeField iw = opcodeField jw → operandField iw = operandField jw → iw = jw) ∧
  (∀ (strict : Bool) (iw : Iw) (i : Instr), decode strict iw = .ok i →
    i.opcode = opcodeField iw ∧ i.operand = operandField iw)

/-- Seven words of 95_test_vectors.md section 2.1 and two more, written out bit by bit, decode as the spec says. The two:
0x1140, JZ [0x40], an example of 30_encoding.md section 7; 0x14FF, an IN with unused bits set, worked from 30_encoding.md
sections 2 and 3 (decision D12). That the unused bits stand in the term (`.add 1 .r3`, `.inp 0xFF`) is the model's choice,
log entry 18. -/
def Obligations.WordsOfTheSpecDecode : Prop :=
  decode false 0b0000000000000#13 = .ok (.nop 0) ∧
  decode false 0b0000100101010#13 = .ok (.loadi 0x2A) ∧
  decode false 0b0010000000101#13 = .ok (.mov 0 .sp) ∧
  decode false 0b0010100000111#13 = .ok (.movw 0 .ma) ∧
  decode false 0b0100000001011#13 = .ok (.add 1 .r3) ∧
  decode true 0b0100000001011#13 = .error (.nonCanonicalOperand 0x080B#13) ∧
  decode false 0b1000101000000#13 = .ok (.jz 0x40) ∧
  decode false 0b1010011111111#13 = .ok (.inp 0xFF) ∧
  decode false 0b1010111111111#13 = .ok (.out 0xFF) ∧
  decode false 0b1011000000000#13 = .error (.illegalOpcode 0x1600#13)

/-! ## The step -/

/-- When the word at `pc` decodes to an instruction and the machine is not halted, the step is that instruction, and
nothing stands around it (10_state.md section 3, the instruction cycle). -/
def Obligations.StepRunsTheDecodedInstruction : Prop :=
  ∀ (s : State) (i : Instr), s.halted = false → decode s.config.strictOperands s.fetchWord = .ok i → step s = exec i s

/-- A halted machine performs no step, however many are asked of it (10_state.md section 5, decision D19; that the step
function answers `Fault.halted` there is the model's choice, log entry 11). -/
def Obligations.HaltedMachinePerformsNoStep : Prop :=
  ∀ (s : State), s.halted = true →
    step s = .fault .halted ∧ ∀ k : Nat, Host.Core.run Sys2Proof.core (k + 1) s = .fault .halted

/-- A word with an unassigned opcode stops the run with the model fault that carries it, or under ILLEGAL_OPCODE_POLICY =
nop executes as NOP (30_encoding.md section 3, 60_exceptions.md section 1, decision D13). -/
def Obligations.IllegalWordStopsOrActsAsNop : Prop :=
  ∀ s : State, s.halted = false → 0x1600 ≤ s.fetchWord.toNat →
    step s = match s.config.illegalPolicy with
      | .fault => .fault (.illegalOpcode s.fetchWord)
      | .nop => exec (.nop 0) s

/-- Under STRICT_OPERANDS a non-canonical word stops the run with the model fault that carries it (30_encoding.md section
2, 60_exceptions.md section 1, decision D12). -/
def Obligations.NonCanonicalWordStopsUnderStrictOperands : Prop :=
  ∀ (s : State) (i : Instr), s.halted = false → s.config.strictOperands = true → s.fetchWord = encode i →
    i.wellFormed = false → step s = .fault (.nonCanonicalOperand s.fetchWord)

/-- When the step answers a next state, exactly: not halted, and the word assigned (and canonical, under STRICT_OPERANDS),
or unassigned under ILLEGAL_OPCODE_POLICY = nop (60_exceptions.md section 5; decisions D12, D13). -/
def Obligations.StepAnswersANextStateExactlyWhen : Prop :=
  ∀ s : State, (∃ t : State, step s = .next t) ↔
    s.halted = false ∧
    ((0x1600 ≤ s.fetchWord.toNat ∧ s.config.illegalPolicy = .nop) ∨
     (s.fetchWord.toNat < 0x1600 ∧
       (s.config.strictOperands = true → ∀ i : Instr, encode i = s.fetchWord → i.wellFormed = true)))

/-- No step of any state is refused, and no instruction is (60_exceptions.md sections 1 and 5). -/
def Obligations.NothingIsRefused : Prop :=
  (∀ (s : State) (r : Refusal), step s ≠ .refused r) ∧ (∀ (i : Instr) (s : State) (r : Refusal), exec i s ≠ .refused r)

/-- An instruction's word placed for the next fetch is what the next step runs, in whatever state and with whatever
operand (70_reset_and_hazards.md section 2; the placing is the host's, log entry 13). -/
def Obligations.PlacedInstructionIsRunNext : Prop :=
  ∀ (s : State) (i : Instr), (s.config.strictOperands = true → i.wellFormed = true) →
    step (s.placeWord (encode i)) = exec i (s.placeWord (encode i)) ∧
    s.withFetchWord 13 (encode i).toNat = s.placeWord (encode i)

/-- Every instruction completes in every state, and `pc` goes where table T-28 says, under both values of
LITERAL_PC_SIGNALS (10_state.md section 3, 60_exceptions.md section 1; decisions D3, D10, D11, D20). -/
def Obligations.EveryInstructionCompletesWithItsProgramCounter : Prop :=
  ∀ (i : Instr) (s : State), ∃ t : State, exec i s = .next t ∧ t.pc = pcAfter i s

/-! ## Data commands -/

/-- NOP: `pc <- pc + 1`, at 0xFF to 0x00, and nothing else changes, with its word and its signal row (40_data.md section 1;
the wrap is the spec's decision D3). -/
def Obligations.NopChangesNothingButPc : Prop :=
  ∀ (u : Byte) (s : State),
    encode (.nop 0) = 0x0000#13 ∧ (Instr.nop u).format = .n ∧
    signals (.nop u) s.zeroF s.carryF = { Signals.idle with pcEN := true } ∧
    ∃ t : State, exec (.nop u) s = .next t ∧ t.pc = s.pc + 1 ∧ (s.pc = 0xFF → t.pc = 0x00) ∧
      KeepsW s t ∧ KeepsFile s t ∧ KeepsFlags s t ∧ KeepsRam s t ∧ KeepsProgram s t ∧ KeepsPorts s t ∧ KeepsHalted s t

/-- R121, whole: `W <- imm; pc <- pc + 1`, no flag written, with its word and its signal row. -/
def Obligations.LoadiLoadsTheImmediate : Prop :=
  ∀ (imm : Byte) (s : State),
    encode (.loadi imm) = 0x0100#13 ||| imm.setWidth 13 ∧ (Instr.loadi imm).format = .i ∧
    signals (.loadi imm) s.zeroF s.carryF = { Signals.idle with wregWE := true, pcEN := true, romToDatabus := true } ∧
    ∃ t : State, exec (.loadi imm) s = .next t ∧ t.w = imm ∧ t.pc = s.pc + 1 ∧
      KeepsFile s t ∧ KeepsFlags s t ∧ KeepsRam s t ∧ KeepsProgram s t ∧ KeepsPorts s t ∧ KeepsHalted s t

/-- R122, whole: `W <- RAM[addr]; pc <- pc + 1`; nothing else changes, the RAM included; a cell never stored to holds
INIT_RAM[addr]: in every state that a run from any launch state reaches without a STORE to `addr` among its steps, the
launch state itself (no step) included. -/
def Obligations.LoadaLoadsTheCell : Prop :=
  ∀ (addr : Byte) (s : State),
    encode (.loada addr) = 0x0200#13 ||| addr.setWidth 13 ∧ (Instr.loada addr).format = .a ∧
    signals (.loada addr) s.zeroF s.carryF =
      { Signals.idle with wregWE := true, ramRE := true, ramAddrEN := true, pcEN := true } ∧
    (∃ t : State, exec (.loada addr) s = .next t ∧ t.w = s.ramRead (dataAddress addr) ∧ t.pc = s.pc + 1 ∧
      KeepsFile s t ∧ KeepsFlags s t ∧ KeepsRam s t ∧ KeepsProgram s t ∧ KeepsPorts s t ∧ KeepsHalted s t) ∧
    (∀ (l : Launch) (k : Nat) (t : State), RunsTo k (launch l) t →
      (∀ (j : Nat) (u : State), j < k → RunsTo j (launch l) u → u.fetchInstr ≠ .ok (.store addr)) →
      t.ramRead (dataAddress addr) = l.initRam addr)

/-- R123, whole: `RAM[addr] <- W; pc <- pc + 1`; exactly one cell is written, every cell at another address reads as
before, and W keeps its value; a LOADA of the address right after reads the value stored. -/
def Obligations.StoreWritesTheCell : Prop :=
  ∀ (addr : Byte) (s : State),
    encode (.store addr) = 0x0300#13 ||| addr.setWidth 13 ∧ (Instr.store addr).format = .a ∧
    signals (.store addr) s.zeroF s.carryF =
      { Signals.idle with wregRE := true, ramWE := true, ramAddrEN := true, pcEN := true } ∧
    (∃ t : State, exec (.store addr) s = .next t ∧
      t.ramRead (dataAddress addr) = s.w ∧ (∀ b : Byte, b ≠ dataAddress addr → t.ramRead b = s.ramRead b) ∧
      t.pc = s.pc + 1 ∧
      KeepsW s t ∧ KeepsFile s t ∧ KeepsFlags s t ∧ KeepsProgram s t ∧ KeepsPorts s t ∧ KeepsHalted s t) ∧
    (∃ t : State, execAll [.store addr, .loada addr] s = .next t ∧ t.w = s.w)

/-- MOV: `W <- x[rn]; pc <- pc + 1`, a copy; no flag (40_data.md section 4; the description is followed against the signal
row, decision D25). -/
def Obligations.MovCopiesTheRegister : Prop :=
  ∀ (u : BitVec 5) (rn : Reg) (s : State),
    ∃ t : State, exec (.mov u rn) s = .next t ∧ t.w = s.reg rn ∧ t.pc = s.pc + 1 ∧
      KeepsFile s t ∧ KeepsFlags s t ∧ KeepsRam s t ∧ KeepsProgram s t ∧ KeepsPorts s t ∧ KeepsHalted s t

/-- R125, whole: `x[rn] <- W; pc <- pc + 1`; every other register of the file, SP, MD and MA among them, keeps its value,
and so does W. -/
def Obligations.MovwWritesTheRegister : Prop :=
  ∀ (u : BitVec 5) (rn : Reg) (s : State),
    encode (.movw 0 rn) = 0x0500#13 ||| rn.code.setWidth 13 ∧ (Instr.movw u rn).format = .r ∧
    signals (.movw u rn) s.zeroF s.carryF =
      { Signals.idle with wregRE := true, regWE := true, regSel := some rn, pcEN := true } ∧
    (∃ t : State, exec (.movw u rn) s = .next t ∧
      t.reg rn = s.w ∧ (∀ q : Reg, q ≠ rn → t.reg q = s.reg q) ∧ t.pc = s.pc + 1 ∧
      KeepsW s t ∧ KeepsFlags s t ∧ KeepsRam s t ∧ KeepsProgram s t ∧ KeepsPorts s t ∧ KeepsHalted s t) ∧
    (∀ (i : Instr) (t : State), (∀ (v : BitVec 5) (q : Reg), i ≠ .movw v q) → exec i s = .next t → KeepsFile s t)

/-- SET and CLEAR: `W <- 0xFF` and `W <- 0x00`, whatever the operand bits hold; no flag is written, zeroF neither
(40_data.md section 5, decision D25). -/
def Obligations.SetAndClearLoadTheirConstants : Prop :=
  ∀ (u : Byte) (s : State),
    (∃ t : State, exec (.set u) s = .next t ∧ t.w = 0xFF ∧ t.pc = s.pc + 1 ∧
      KeepsFile s t ∧ KeepsFlags s t ∧ KeepsRam s t ∧ KeepsProgram s t ∧ KeepsPorts s t ∧ KeepsHalted s t) ∧
    (∃ t : State, exec (.clear u) s = .next t ∧ t.w = 0x00 ∧ t.pc = s.pc + 1 ∧
      KeepsFile s t ∧ KeepsFlags s t ∧ KeepsRam s t ∧ KeepsProgram s t ∧ KeepsPorts s t ∧ KeepsHalted s t)

/-! ## ALU commands -/

/-- ADD: the sum modulo 256, carryF its carry out, zeroF of the 8-bit result (41_alu.md sections 1 and 2; the flags are
decisions D5 and D6). -/
def Obligations.AddGivesSumAndCarry : Prop :=
  ∀ (u : BitVec 5) (rn : Reg) (s : State),
    ∃ t : State, exec (.add u rn) s = .next t ∧
      t.w.toNat = (s.w.toNat + (s.reg rn).toNat) % 256 ∧
      (t.carryF = true ↔ 256 ≤ s.w.toNat + (s.reg rn).toNat) ∧
      (t.zeroF = true ↔ t.w = 0) ∧ t.pc = s.pc + 1 ∧
      KeepsFile s t ∧ KeepsRam s t ∧ KeepsProgram s t ∧ KeepsPorts s t ∧ KeepsHalted s t

/-- SUB: the difference `W - x[rn]` modulo 256, carryF the borrow or its inverse by P_CARRY_SUB, zeroF exactly if the
operands were equal (41_alu.md sections 1 and 2; the flags are decisions D5 and D7). -/
def Obligations.SubGivesDifferenceAndBorrow : Prop :=
  ∀ (u : BitVec 5) (rn : Reg) (s : State),
    ∃ t : State, exec (.sub u rn) s = .next t ∧
      t.w.toNat = (s.w.toNat + 256 - (s.reg rn).toNat) % 256 ∧
      (t.carryF = true ↔ match s.config.carrySub with
        | .borrow => s.w.toNat < (s.reg rn).toNat
        | .notBorrow => (s.reg rn).toNat ≤ s.w.toNat) ∧
      (t.zeroF = true ↔ t.w = 0) ∧ (t.zeroF = true ↔ s.w = s.reg rn) ∧ t.pc = s.pc + 1 ∧
      KeepsFile s t ∧ KeepsRam s t ∧ KeepsProgram s t ∧ KeepsPorts s t ∧ KeepsHalted s t

/-- AND: bitwise on all 8 bits (41_alu.md sections 1 and 2; the flags are decisions D5 and D8; a carry under P_CARRY_LOGIC =
any is a free value, log entry 10). -/
def Obligations.AndIsBitwise : Prop :=
  ∀ (u : BitVec 5) (rn : Reg) (s : State),
    ∃ t : State, exec (.and u rn) s = .next t ∧
      (∀ k : Nat, t.w.getLsbD k = (s.w.getLsbD k && (s.reg rn).getLsbD k)) ∧ LogicCommandRest s t

/-- OR: bitwise on all 8 bits; the result is 0x00 only when both operands are (41_alu.md sections 1 and 2; the flags are
decisions D5 and D8; a carry under P_CARRY_LOGIC = any is a free value, log entry 10). -/
def Obligations.OrIsBitwise : Prop :=
  ∀ (u : BitVec 5) (rn : Reg) (s : State),
    ∃ t : State, exec (.or u rn) s = .next t ∧
      (∀ k : Nat, t.w.getLsbD k = (s.w.getLsbD k || (s.reg rn).getLsbD k)) ∧
      (t.zeroF = true ↔ s.w = 0 ∧ s.reg rn = 0) ∧ LogicCommandRest s t

/-- XOR: bitwise on all 8 bits; the result is 0x00 exactly when the operands are equal (41_alu.md sections 1 and 2; the
flags are decisions D5 and D8; a carry under P_CARRY_LOGIC = any is a free value, log entry 10). -/
def Obligations.XorIsBitwise : Prop :=
  ∀ (u : BitVec 5) (rn : Reg) (s : State),
    ∃ t : State, exec (.xor u rn) s = .next t ∧
      (∀ k : Nat, t.w.getLsbD k = Bool.xor (s.w.getLsbD k) ((s.reg rn).getLsbD k)) ∧
      (t.zeroF = true ↔ s.w = s.reg rn) ∧ LogicCommandRest s t

/-- NOT: every bit complemented; the result is 0x00 exactly from 0xFF (41_alu.md sections 1 and 3; the flags are decisions
D5 and D8; a carry under P_CARRY_LOGIC = any is a free value, log entry 10). -/
def Obligations.NotComplementsEveryBit : Prop :=
  ∀ (u : Byte) (s : State),
    ∃ t : State, exec (.not u) s = .next t ∧
      (∀ k : Nat, k < 8 → t.w.getLsbD k = !(s.w.getLsbD k)) ∧
      (t.zeroF = true ↔ s.w = 0xFF) ∧ LogicCommandRest s t

/-- INC: one more modulo 256; carryF 1 exactly from 0xFF, or kept, by P_CARRY_INCDEC (41_alu.md sections 1 and 3; the
flags are decisions D5 and D9). -/
def Obligations.IncAddsOne : Prop :=
  ∀ (u : Byte) (s : State),
    ∃ t : State, exec (.inc u) s = .next t ∧
      t.w.toNat = (s.w.toNat + 1) % 256 ∧
      (t.carryF = true ↔ match s.config.carryIncDec with
        | .asAddSub => s.w = 0xFF
        | .unchanged => s.carryF = true) ∧
      (t.zeroF = true ↔ s.w = 0xFF) ∧ t.pc = s.pc + 1 ∧
      KeepsFile s t ∧ KeepsRam s t ∧ KeepsProgram s t ∧ KeepsPorts s t ∧ KeepsHalted s t

/-- DEC: one less modulo 256; carryF by P_CARRY_INCDEC and P_CARRY_SUB; zeroF exactly from 0x01 (41_alu.md sections 1 and
3; the flags are decisions D5, D7 and D9). -/
def Obligations.DecSubtractsOne : Prop :=
  ∀ (u : Byte) (s : State),
    ∃ t : State, exec (.dec u) s = .next t ∧
      t.w.toNat = (s.w.toNat + 255) % 256 ∧
      (t.carryF = true ↔ match s.config.carryIncDec, s.config.carrySub with
        | .asAddSub, .borrow => s.w = 0x00
        | .asAddSub, .notBorrow => s.w ≠ 0x00
        | .unchanged, _ => s.carryF = true) ∧
      (t.zeroF = true ↔ s.w = 0x01) ∧ t.pc = s.pc + 1 ∧
      KeepsFile s t ∧ KeepsRam s t ∧ KeepsProgram s t ∧ KeepsPorts s t ∧ KeepsHalted s t

/-- The identities of 41_alu.md section 4: ADD then SUB of one register, NOT twice, XOR twice with one register and INC
then DEC restore W, and NOT then INC negates it. -/
def Obligations.AluIdentitiesHold : Prop :=
  ∀ (u v : BitVec 5) (a b : Byte) (rn : Reg) (s : State),
    (∃ t : State, execAll [.add u rn, .sub v rn] s = .next t ∧ t.w = s.w) ∧
    (∃ t : State, execAll [.not a, .not b] s = .next t ∧ t.w = s.w) ∧
    (∃ t : State, execAll [.xor u rn, .xor v rn] s = .next t ∧ t.w = s.w) ∧
    (∃ t : State, execAll [.inc a, .dec b] s = .next t ∧ t.w = s.w) ∧
    (∃ t : State, execAll [.not a, .inc b] s = .next t ∧ t.w.toNat = (256 - s.w.toNat) % 256)

/-- SUB as the machine's compare: after it JZ is taken exactly when the operands were equal, and JC when W was below the
register, or the inverse by P_CARRY_SUB (41_alu.md section 2; decisions D5, D7, D10). -/
def Obligations.SubThenJumpCompares : Prop :=
  ∀ (u : BitVec 5) (rn : Reg) (addr : Byte) (s : State),
    (∃ t : State, execAll [.sub u rn, .jz addr] s = .next t ∧
      t.pc = if s.w = s.reg rn then addr else if s.config.literalPcSignals then s.pc + 1 else s.pc + 2) ∧
    (∃ t : State, execAll [.sub u rn, .jc addr] s = .next t ∧
      t.pc =
        if (match s.config.carrySub with
          | .borrow => decide (s.w.toNat < (s.reg rn).toNat)
          | .notBorrow => decide ((s.reg rn).toNat ≤ s.w.toNat)) = true
        then addr
        else if s.config.literalPcSignals then s.pc + 1 else s.pc + 2)

/-! ## Jumps and halt -/

/-- R161, whole: `pc <- addr`, and nothing else changes; a jump to its own address leaves the state as it is. -/
def Obligations.JmpGoesToItsAddress : Prop :=
  ∀ (addr : Byte) (s : State),
    encode (.jmp addr) = 0x1000#13 ||| addr.setWidth 13 ∧ (Instr.jmp addr).format = .a ∧
    signals (.jmp addr) s.zeroF s.carryF = { Signals.idle with pcLoad := true, romToDatabus := true } ∧
    (∃ t : State, exec (.jmp addr) s = .next t ∧ t.pc = jumpTarget addr ∧
      KeepsW s t ∧ KeepsFile s t ∧ KeepsFlags s t ∧ KeepsRam s t ∧ KeepsProgram s t ∧ KeepsPorts s t ∧
      KeepsHalted s t) ∧
    exec (.jmp s.pc) s = .next s ∧ exec (.jmp (s.pc + 1)) s = exec (.nop 0) s

/-- JZ: taken exactly if the flag zeroF is 1, whatever W and carryF are; else the next address, or the same one under
LITERAL_PC_SIGNALS (42_jump.md section 2, decision D10). Nothing but `pc` changes. -/
def Obligations.JzTestsZeroF : Prop :=
  ∀ (addr : Byte) (s : State),
    ∃ t : State, exec (.jz addr) s = .next t ∧
      (s.zeroF = true → t.pc = jumpTarget addr) ∧
      (s.zeroF = false → t.pc = if s.config.literalPcSignals then s.pc else s.pc + 1) ∧
      KeepsW s t ∧ KeepsFile s t ∧ KeepsFlags s t ∧ KeepsRam s t ∧ KeepsProgram s t ∧ KeepsPorts s t ∧ KeepsHalted s t

/-- JC: as JZ with carryF (42_jump.md section 2, decision D10). -/
def Obligations.JcTestsCarryF : Prop :=
  ∀ (addr : Byte) (s : State),
    ∃ t : State, exec (.jc addr) s = .next t ∧
      (s.carryF = true → t.pc = jumpTarget addr) ∧
      (s.carryF = false → t.pc = if s.config.literalPcSignals then s.pc else s.pc + 1) ∧
      KeepsW s t ∧ KeepsFile s t ∧ KeepsFlags s t ∧ KeepsRam s t ∧ KeepsProgram s t ∧ KeepsPorts s t ∧ KeepsHalted s t

/-- HLT: `halted <- 1`; `pc` keeps the address of the HLT and everything else its value (42_jump.md section 3, decision
D19). -/
def Obligations.HltHaltsInPlace : Prop :=
  ∀ (u : Byte) (s : State),
    ∃ t : State, exec (.hlt u) s = .next t ∧ t.halted = true ∧ t.pc = s.pc ∧
      KeepsW s t ∧ KeepsFile s t ∧ KeepsFlags s t ∧ KeepsRam s t ∧ KeepsProgram s t ∧ KeepsPorts s t

/-! ## I/O -/

/-- IN: W takes the next byte the environment is known to present, or a free one (43_io.md section 2; decisions D11 and
D17; the list and the free value are log entries 8 and 9). No flag is written. -/
def Obligations.InReadsTheInputByte : Prop :=
  ∀ (u : Byte) (s : State),
    ∃ t : State, exec (.inp u) s = .next t ∧
      (match s.input with
        | b :: rest => t.w = b ∧ t.input = rest ∧ t.draws = s.draws
        | [] => t.w = Config.inputByte s.draws ∧ t.input = [] ∧ t.draws = s.draws + 1) ∧
      t.pc = (if s.config.literalPcSignals then s.pc else s.pc + 1) ∧ t.out = s.out ∧
      KeepsFile s t ∧ KeepsFlags s t ∧ KeepsRam s t ∧ KeepsProgram s t ∧ KeepsHalted s t

/-- OUT: the pair (row, W) is appended to the output history; W keeps its value and no flag is written (43_io.md section
2; decisions D11 and D18). -/
def Obligations.OutAppendsRowAndValue : Prop :=
  ∀ (row : Byte) (s : State),
    ∃ t : State, exec (.out row) s = .next t ∧ t.out = s.out ++ [(row, s.w)] ∧
      t.pc = (if s.config.literalPcSignals then s.pc else s.pc + 1) ∧ t.input = s.input ∧ t.draws = s.draws ∧
      KeepsW s t ∧ KeepsFile s t ∧ KeepsFlags s t ∧ KeepsRam s t ∧ KeepsProgram s t ∧ KeepsHalted s t

/-! ## The whole machine -/

/-- What each instruction may write: the columns of table T-25 and of the table of components (10_state.md sections 1 and
2; the flags by decision D4). The program memory and the parameters are written by none (the parameters stand in the state
by log entry 1, the known input bytes by log entry 8). -/
def Obligations.EachComponentHasItsWriters : Prop :=
  ∀ (i : Instr) (s t : State), exec i s = .next t →
    ((accessOf i).writesW = false → KeepsW s t) ∧
    ((accessOf i).writesFile = false → KeepsFile s t) ∧
    ((accessOf i).writesFlags = false → KeepsFlags s t) ∧
    ((∀ a : Byte, i ≠ .store a) → KeepsRam s t) ∧
    ((∀ u : Byte, i ≠ .hlt u) → KeepsHalted s t) ∧
    ((∀ r : Byte, i ≠ .out r) → t.out = s.out) ∧
    ((∀ u : Byte, i ≠ .inp u) → t.input = s.input) ∧
    KeepsProgram s t

/-- An instruction that table T-25 says does not read W does the same whatever W holds (10_state.md section 2). -/
def Obligations.WIsReadOnlyWhereTheTableSays : Prop :=
  ∀ (i : Instr) (s t : State) (v : Byte), (accessOf i).readsW = false → exec i s = .next t →
    exec i { s with w := v } = .next { t with w := if (accessOf i).writesW then t.w else v }

/-- An instruction that table T-25 says does not read the register file does the same whatever the file holds, and leaves
the file it found; MOVW, the one that writes a register, leaves the same value in that register whatever the file holds,
and every other register as it found it (10_state.md section 2). -/
def Obligations.FileIsReadOnlyWhereTheTableSays : Prop :=
  ∀ (i : Instr) (s t : State) (f : RegFile), (accessOf i).readsFile = false → exec i s = .next t →
    ∃ t' : State, exec i { s with x := f } = .next t' ∧ { t' with x := t.x } = t ∧
      ((accessOf i).writesFile = false → t'.x = f) ∧
      (∀ (u : BitVec 5) (rn : Reg), i = .movw u rn →
        t'.reg rn = t.reg rn ∧ ∀ q : Reg, q ≠ rn → t'.reg q = f.get q)

/-- zeroF decides nothing but JZ, and carryF nothing but JC and the carryF that is kept. Whatever carryF was, an
instruction other than JC does the same, carryF itself apart: one that writes no flag leaves it as it was; ADD and SUB never
show what it was; AND, OR, XOR and NOT keep it under P_CARRY_LOGIC = unchanged, INC and DEC under P_CARRY_INCDEC =
unchanged, and under any other value of these parameters the carryF they leave is the same whatever it was (10_state.md
sections 2 and 4, 41_alu.md section 1 table T-140; decisions D6 to D9; the free carry of P_CARRY_LOGIC = any is log entry
10). -/
def Obligations.FlagsDecideOnlyTheirJumps : Prop :=
  ∀ (i : Instr) (s t : State) (f : Bool), exec i s = .next t →
    ((accessOf i).readsZeroF = false →
      exec i { s with zeroF := f } = .next { t with zeroF := if (accessOf i).writesFlags then t.zeroF else f }) ∧
    ((accessOf i).readsCarryF = false →
      exec i { s with carryF := f } = .next { t with carryF := if keepsCarry s.config i then f else t.carryF })

/-- No instruction but LOADA learns what the RAM holds, and no fetch does: the rest of the machine goes on the same
whatever the data memory holds. The cell a STORE writes gets the same value whatever the RAM held, and every other cell
keeps what it held (20_memory.md sections 1 and 5, decision D1). -/
def Obligations.RamIsSeenOnlyByLoada : Prop :=
  (∀ (s : State) (m : List Host.Cell), ({ s with ram := m } : State).fetchInstr = s.fetchInstr) ∧
  (∀ (i : Instr) (s t : State) (m : List Host.Cell), (∀ a : Byte, i ≠ .loada a) → exec i s = .next t →
    ∃ t' : State, exec i { s with ram := m } = .next t' ∧ { t' with ram := t.ram } = t ∧
      (∀ a : Byte, i = .store a → t'.ramRead (dataAddress a) = t.ramRead (dataAddress a)) ∧
      (∀ b : Byte, (∀ a : Byte, i = .store a → b ≠ dataAddress a) →
        t'.ramRead b = ({ s with ram := m } : State).ramRead b))

/-- Two sequences: a LOADA directly after a STORE reads what the STORE wrote if the addresses are equal, and otherwise what
its cell held before; and with one LOADI between, a LOADA of the STORE's address still reads what the STORE wrote,
and `pc` is three further (20_memory.md sections 2 and 5; decisions D22, D23). LoadaReadsTheMostRecentStore says it at any distance. -/
def Obligations.LoadaAfterStoreReadsItBack : Prop :=
  ∀ (a b c : Byte) (s : State),
    (∃ t : State, execAll [.store a, .loada b] s = .next t ∧ t.w = if b = a then s.w else s.ramRead b) ∧
    (∃ t : State, execAll [.store a, .loadi c, .loada a] s = .next t ∧ t.w = s.w ∧ t.pc = s.pc + 3)

/-- Two pairs of instructions, the second of which uses what the first has just written: MOVW then ADD of the same register
doubles W, and DEC then JZ tests the flag just made (70_reset_and_hazards.md section 4, decision D23; the flags are
decisions D5 and D6, the fall-through D10). -/
def Obligations.WritesShowInTheNextInstruction : Prop :=
  ∀ (u v : BitVec 5) (a addr : Byte) (rn : Reg) (s : State),
    (∃ t : State, execAll [.movw u rn, .add v rn] s = .next t ∧
      t.reg rn = s.w ∧ t.w.toNat = (2 * s.w.toNat) % 256 ∧ (t.carryF = true ↔ 128 ≤ s.w.toNat)) ∧
    (∃ t : State, execAll [.dec a, .jz addr] s = .next t ∧
      t.pc = if s.w = 0x01 then addr else if s.config.literalPcSignals then s.pc + 1 else s.pc + 2)

/-- A step halts the machine exactly if the instruction it fetches is HLT (70_reset_and_hazards.md section 3; decision
D19). -/
def Obligations.OnlyHltEndsARun : Prop :=
  ∀ s t : State, step s = .next t →
    (Final t ↔ ∃ u : Byte, s.fetchInstr = .ok (.hlt u)) ∧ (Final t → t = { s with halted := true })

/-- Runs that go on for ever without halting: a JMP to its own address, and under LITERAL_PC_SIGNALS a JZ or JC that is
not taken (42_jump.md section 2, 60_exceptions.md section 5; decision D10). -/
def Obligations.SelfJumpsRunForEver : Prop :=
  (∀ s : State, s.halted = false → s.fetchWord = encode (.jmp s.pc) → ∀ k : Nat, RunsTo k s s) ∧
  (∀ (s : State) (addr : Byte), s.halted = false → s.config.literalPcSignals = true → s.zeroF = false →
    s.fetchWord = encode (.jz addr) → ∀ k : Nat, RunsTo k s s) ∧
  (∀ (s : State) (addr : Byte), s.halted = false → s.config.literalPcSignals = true → s.carryF = false →
    s.fetchWord = encode (.jc addr) → ∀ k : Nat, RunsTo k s s)

/-- Along every run the program and the parameters stay the same, the output history only grows, the list of known input
bytes is only consumed from its head, and the counter of free values never goes down (20_memory.md section 5, 10_state.md
section 7; decisions D1 and D18). Of these the parameters as state (log entry 1), the list of known bytes (log entry 8; the
spec gives the machine no state for its input) and the counter (log entry 9) are the model's own. -/
def Obligations.RunsKeepProgramAndHistory : Prop :=
  ∀ (k : Nat) (s t : State), RunsTo k s t →
    t.rom = s.rom ∧ t.config = s.config ∧ s.out <+: t.out ∧ t.input <:+ s.input ∧ s.draws ≤ t.draws

/-- A program image of assigned words (canonical ones, under STRICT_OPERANDS) never meets a model fault, in whatever state
and with whatever input it runs (60_exceptions.md sections 1 and 5; decisions D12, D13, D20). -/
def Obligations.AssignedProgramsRunSafely : Prop :=
  ∀ s : State,
    (∀ a : Byte, (s.romRead a).toNat < 0x1600 ∧
      (s.config.strictOperands = true → ∀ i : Instr, encode i = s.romRead a → i.wellFormed = true)) →
    SafeRun s

/-! ## The canonical form of the memories -/

/-- Every step keeps both memories in canonical form (the form is the model's own, log entries 6 and 7). -/
def Obligations.StepKeepsMemoriesCanonical : Prop :=
  ∀ s t : State, Memory.wf s = true → step s = .next t → Memory.wf t = true

/-- The state after reset, every launch state, and every state a word has been placed in have it (log entries 6, 7 and
13). -/
def Obligations.ResetAndLaunchMemoriesAreCanonical : Prop :=
  Memory.wf State.reset = true ∧ (∀ l : Launch, Memory.wf (launch l) = true) ∧
  (∀ (s : State) (nbits w : Nat), Memory.wf s = true → Memory.wf (s.withFetchWord nbits w) = true)

/-! ## Control signals and data path -/

/-- R103, whole: the four control-signal tables, cell for cell, in the source's column order (`none` is "–"). -/
def Obligations.ControlSignalTables : Prop :=
  ∀ (n : Byte) (u : BitVec 5) (rn : Reg) (z c : Bool),
    signals (.nop n) z c   = ⟨false, false, false, none, false, false, false, none, false, false, true, false, false, false, false, false⟩ ∧
    signals (.loadi n) z c = ⟨true, false, false, none, false, false, false, none, false, false, true, true, false, false, false, false⟩ ∧
    signals (.loada n) z c = ⟨true, false, false, none, true, false, true, none, false, false, true, false, false, false, false, false⟩ ∧
    signals (.store n) z c = ⟨false, true, false, none, false, true, true, none, false, false, true, false, false, false, false, false⟩ ∧
    signals (.mov u rn) z c  = ⟨true, false, false, some rn, false, false, false, none, false, false, true, false, false, false, false, false⟩ ∧
    signals (.movw u rn) z c = ⟨false, true, true, some rn, false, false, false, none, false, false, true, false, false, false, false, false⟩ ∧
    signals (.set n) z c   = ⟨true, false, false, none, false, false, false, none, false, false, true, false, false, false, false, false⟩ ∧
    signals (.clear n) z c = ⟨true, false, false, none, false, false, false, none, false, false, true, false, false, false, false, false⟩ ∧
    (∀ op : AluOp, op.code = match op with
      | .add => 0b000#3 | .sub => 0b001#3 | .and => 0b010#3 | .or => 0b011#3
      | .xor => 0b100#3 | .not => 0b101#3 | .inc => 0b110#3 | .dec => 0b111#3) ∧
    signals (.add u rn) z c = ⟨true, false, false, some rn, false, false, false, some .add, true, false, true, false, false, false, false, false⟩ ∧
    signals (.sub u rn) z c = ⟨true, false, false, some rn, false, false, false, some .sub, true, false, true, false, false, false, false, false⟩ ∧
    signals (.and u rn) z c = ⟨true, false, false, some rn, false, false, false, some .and, true, false, true, false, false, false, false, false⟩ ∧
    signals (.or u rn) z c  = ⟨true, false, false, some rn, false, false, false, some .or, true, false, true, false, false, false, false, false⟩ ∧
    signals (.xor u rn) z c = ⟨true, false, false, some rn, false, false, false, some .xor, true, false, true, false, false, false, false, false⟩ ∧
    signals (.not n) z c = ⟨true, false, false, none, false, false, false, some .not, true, false, true, false, false, false, false, false⟩ ∧
    signals (.inc n) z c = ⟨true, false, false, none, false, false, false, some .inc, true, false, true, false, false, false, false, false⟩ ∧
    signals (.dec n) z c = ⟨true, false, false, none, false, false, false, some .dec, true, false, true, false, false, false, false, false⟩ ∧
    signals (.jmp n) z c = ⟨false, false, false, none, false, false, false, none, false, true, false, true, false, false, false, false⟩ ∧
    signals (.jz n) z c  = ⟨false, false, false, none, false, false, false, none, false, z, false, true, false, false, false, false⟩ ∧
    signals (.jc n) z c  = ⟨false, false, false, none, false, false, false, none, false, c, false, true, false, false, false, false⟩ ∧
    signals (.hlt n) z c = ⟨false, false, false, none, false, false, false, none, false, false, false, false, false, false, false, true⟩ ∧
    signals (.inp n) z c = ⟨true, false, false, none, false, false, false, none, false, false, false, false, false, true, false, false⟩ ∧
    signals (.out n) z c = ⟨false, true, false, none, false, false, false, none, false, false, false, false, false, false, true, false⟩

/-- The data path driven by the signal rows does what the instructions' rules say: for every instruction but MOV, SET and
CLEAR, the next state is the data path's with `pc` of table T-28, and under LITERAL_PC_SIGNALS it is the data path's
exactly (30_encoding.md section 6, 10_state.md sections 3 and 8). The signals' meanings are the spec's inference (table
T-102), and that an OUT's row reaches the port beside the bus is the model's, log entry 20. MOV, SET and CLEAR are the
subject of LiteralRowsOfMovSetClearMissOnlyW. -/
def Obligations.DatapathAgreesWithTheInstructionRules : Prop :=
  ∀ (i : Instr) (s : State),
    (∀ (u : BitVec 5) (rn : Reg), i ≠ .mov u rn) → (∀ u : Byte, i ≠ .set u) → (∀ u : Byte, i ≠ .clear u) →
    exec i s = .next ((datapath (signals i s.zeroF s.carryF) i.operand s).setPc (pcAfter i s)) ∧
    (s.config.literalPcSignals = true →
      exec i s = .next (datapath (signals i s.zeroF s.carryF) i.operand s))

/-- For MOV, SET and CLEAR the signal row, read literally, gives W an undriven bus and is right in everything else; with
RN_TO_DATABUS set, MOV's row is right in that too (30_encoding.md section 6, 90_conflicts.md C5 and C6; the undriven bus is
a free value, log entry 12). -/
def Obligations.LiteralRowsOfMovSetClearMissOnlyW : Prop :=
  ∀ (u : BitVec 5) (n : Byte) (rn : Reg) (s : State),
    (∀ i ∈ [Instr.mov u rn, .set n, .clear n],
      busDriven (signals i s.zeroF s.carryF) = false ∧
      (datapath (signals i s.zeroF s.carryF) i.operand s).w = Config.undrivenBus s.draws ∧
      ∃ t : State, exec i s = .next t ∧ t = (datapath (signals i s.zeroF s.carryF) i.operand s).setW t.w) ∧
    exec (.mov u rn) s = .next
      (datapath { signals (.mov u rn) s.zeroF s.carryF with rnToDatabus := true } (Instr.mov u rn).operand s)

/-! ## Reset -/

/-- What reset leaves: `pc` = RESET_PC = 0x00, not halted, an empty output history (10_state.md section 10,
70_reset_and_hazards.md section 1; decisions D14 and D18), the default parameters (log entry 2), and the state is one of
the launch states. W, the registers, the flags, the RAM and the ROM hold what log entries 3 to 7 name. -/
def Obligations.ResetIsTheNamedLaunchState : Prop :=
  State.reset.pc = 0x00 ∧ State.reset.halted = false ∧ State.reset.out = [] ∧
  State.reset.config = Config.default ∧ State.reset = launch Launch.named

/-- The launch state, for any launch inputs: `pc` = RESET_PC, not halted, an empty output history, and W, the registers,
the flags, all 256 RAM cells and all 256 ROM words as the inputs say (10_state.md section 10, 20_memory.md section 6;
decisions D14 to D16, D18). -/
def Obligations.LaunchStateHoldsItsInputs : Prop :=
  ∀ l : Launch,
    (launch l).pc = l.resetPc ∧ (launch l).halted = false ∧ (launch l).out = [] ∧
    (launch l).w = l.initW ∧ (∀ r : Reg, (launch l).reg r = l.initX r) ∧
    (launch l).zeroF = l.initZeroF ∧ (launch l).carryF = l.initCarryF ∧
    (∀ a : Byte, (launch l).ramRead a = l.initRam a) ∧ (∀ a : Byte, (launch l).romRead a = l.romImage a) ∧
    (launch l).input = l.input ∧ (launch l).config = l.config

/-- A reset after a run, from a halted state too: the machine runs again from RESET_PC, with the program it had and an empty
output history (10_state.md section 10, 70_reset_and_hazards.md section 1; decisions D14, D16, D18, D19). `State.restart`,
and with it that the parameters stay, is the model's choice, log entry 19. -/
def Obligations.ResetLeavesTheHaltedState : Prop :=
  ∀ (s : State) (l : Launch),
    (s.restart l).halted = false ∧ (s.restart l).pc = l.resetPc ∧ (s.restart l).out = [] ∧
    KeepsProgram s (s.restart l) ∧ (s.restart l).fetchWord = s.romRead l.resetPc

/-! ## Memory at any distance -/

/-- A LOADA reads what the most recent STORE to its address wrote, at any distance (20_memory.md section 5, decision D22).
First clause: whatever instructions are executed between the two, none of them a STORE to that address, STOREs to other
addresses among them (`execAll` executes a list and does not stop at an HLT in it). Second clause, of runs: a step that
stores to `a`, then any number of steps none of which stores to `a`, then a step that loads from `a`. -/
def Obligations.LoadaReadsTheMostRecentStore : Prop :=
  (∀ (a : Byte) (is : List Instr) (s : State), (∀ i ∈ is, i ≠ .store a) →
    ∃ t : State, execAll (.store a :: (is ++ [.loada a])) s = .next t ∧ t.w = s.w) ∧
  (∀ (a : Byte) (k : Nat) (s v : State), s.fetchInstr = .ok (.store a) → RunsTo (k + 1) s v →
    (∀ (j : Nat) (u : State), 0 < j → j ≤ k → RunsTo j s u → u.fetchInstr ≠ .ok (.store a)) →
    v.halted = false → v.fetchInstr = .ok (.loada a) → ∃ t : State, step v = .next t ∧ t.w = s.w)
end

