-- ==== Sys2Proof/Laws/State.lean ====
section
/-!
SUPPORT. Beside State: what each named update of Machine/Ops.lean, Machine/Flags.lean and Machine/Fetch.lean leaves in
each field, true by unfolding, and what the readers see of it, so that no later proof unfolds a record update.
-/
namespace Sys2Proof.Machine

/-! ## setW -/

@[simp] theorem State.setW_w (s : State) (v : Byte) : (s.setW v).w = v := rfl
@[simp] theorem State.setW_x (s : State) (v : Byte) : (s.setW v).x = s.x := rfl
@[simp] theorem State.setW_pc (s : State) (v : Byte) : (s.setW v).pc = s.pc := rfl
@[simp] theorem State.setW_zeroF (s : State) (v : Byte) : (s.setW v).zeroF = s.zeroF := rfl
@[simp] theorem State.setW_carryF (s : State) (v : Byte) : (s.setW v).carryF = s.carryF := rfl
@[simp] theorem State.setW_halted (s : State) (v : Byte) : (s.setW v).halted = s.halted := rfl
@[simp] theorem State.setW_ram (s : State) (v : Byte) : (s.setW v).ram = s.ram := rfl
@[simp] theorem State.setW_rom (s : State) (v : Byte) : (s.setW v).rom = s.rom := rfl
@[simp] theorem State.setW_out (s : State) (v : Byte) : (s.setW v).out = s.out := rfl
@[simp] theorem State.setW_input (s : State) (v : Byte) : (s.setW v).input = s.input := rfl
@[simp] theorem State.setW_draws (s : State) (v : Byte) : (s.setW v).draws = s.draws := rfl
@[simp] theorem State.setW_config (s : State) (v : Byte) : (s.setW v).config = s.config := rfl
@[simp] theorem State.setW_reg (s : State) (v : Byte) (q : Reg) : (s.setW v).reg q = s.reg q := rfl
@[simp] theorem State.setW_ramRead (s : State) (v : Byte) (b : Byte) : (s.setW v).ramRead b = s.ramRead b := rfl
@[simp] theorem State.setW_romRead (s : State) (v : Byte) (b : Byte) : (s.setW v).romRead b = s.romRead b := rfl

/-! ## setReg -/

@[simp] theorem State.setReg_w (s : State) (rn : Reg) (v : Byte) : (s.setReg rn v).w = s.w := rfl
@[simp] theorem State.setReg_x (s : State) (rn : Reg) (v : Byte) : (s.setReg rn v).x = s.x.set rn v := rfl
@[simp] theorem State.setReg_pc (s : State) (rn : Reg) (v : Byte) : (s.setReg rn v).pc = s.pc := rfl
@[simp] theorem State.setReg_zeroF (s : State) (rn : Reg) (v : Byte) : (s.setReg rn v).zeroF = s.zeroF := rfl
@[simp] theorem State.setReg_carryF (s : State) (rn : Reg) (v : Byte) : (s.setReg rn v).carryF = s.carryF := rfl
@[simp] theorem State.setReg_halted (s : State) (rn : Reg) (v : Byte) : (s.setReg rn v).halted = s.halted := rfl
@[simp] theorem State.setReg_ram (s : State) (rn : Reg) (v : Byte) : (s.setReg rn v).ram = s.ram := rfl
@[simp] theorem State.setReg_rom (s : State) (rn : Reg) (v : Byte) : (s.setReg rn v).rom = s.rom := rfl
@[simp] theorem State.setReg_out (s : State) (rn : Reg) (v : Byte) : (s.setReg rn v).out = s.out := rfl
@[simp] theorem State.setReg_input (s : State) (rn : Reg) (v : Byte) : (s.setReg rn v).input = s.input := rfl
@[simp] theorem State.setReg_draws (s : State) (rn : Reg) (v : Byte) : (s.setReg rn v).draws = s.draws := rfl
@[simp] theorem State.setReg_config (s : State) (rn : Reg) (v : Byte) : (s.setReg rn v).config = s.config := rfl
@[simp] theorem State.setReg_ramRead (s : State) (rn : Reg) (v : Byte) (b : Byte) : (s.setReg rn v).ramRead b = s.ramRead b := rfl
@[simp] theorem State.setReg_romRead (s : State) (rn : Reg) (v : Byte) (b : Byte) : (s.setReg rn v).romRead b = s.romRead b := rfl

/-! ## setFlags -/

@[simp] theorem State.setFlags_w (s : State) (z c : Bool) : (s.setFlags z c).w = s.w := rfl
@[simp] theorem State.setFlags_x (s : State) (z c : Bool) : (s.setFlags z c).x = s.x := rfl
@[simp] theorem State.setFlags_pc (s : State) (z c : Bool) : (s.setFlags z c).pc = s.pc := rfl
@[simp] theorem State.setFlags_zeroF (s : State) (z c : Bool) : (s.setFlags z c).zeroF = z := rfl
@[simp] theorem State.setFlags_carryF (s : State) (z c : Bool) : (s.setFlags z c).carryF = c := rfl
@[simp] theorem State.setFlags_halted (s : State) (z c : Bool) : (s.setFlags z c).halted = s.halted := rfl
@[simp] theorem State.setFlags_ram (s : State) (z c : Bool) : (s.setFlags z c).ram = s.ram := rfl
@[simp] theorem State.setFlags_rom (s : State) (z c : Bool) : (s.setFlags z c).rom = s.rom := rfl
@[simp] theorem State.setFlags_out (s : State) (z c : Bool) : (s.setFlags z c).out = s.out := rfl
@[simp] theorem State.setFlags_input (s : State) (z c : Bool) : (s.setFlags z c).input = s.input := rfl
@[simp] theorem State.setFlags_draws (s : State) (z c : Bool) : (s.setFlags z c).draws = s.draws := rfl
@[simp] theorem State.setFlags_config (s : State) (z c : Bool) : (s.setFlags z c).config = s.config := rfl
@[simp] theorem State.setFlags_reg (s : State) (z c : Bool) (q : Reg) : (s.setFlags z c).reg q = s.reg q := rfl
@[simp] theorem State.setFlags_ramRead (s : State) (z c : Bool) (b : Byte) : (s.setFlags z c).ramRead b = s.ramRead b := rfl
@[simp] theorem State.setFlags_romRead (s : State) (z c : Bool) (b : Byte) : (s.setFlags z c).romRead b = s.romRead b := rfl

/-! ## setPc -/

@[simp] theorem State.setPc_w (s : State) (t : Byte) : (s.setPc t).w = s.w := rfl
@[simp] theorem State.setPc_x (s : State) (t : Byte) : (s.setPc t).x = s.x := rfl
@[simp] theorem State.setPc_pc (s : State) (t : Byte) : (s.setPc t).pc = t := rfl
@[simp] theorem State.setPc_zeroF (s : State) (t : Byte) : (s.setPc t).zeroF = s.zeroF := rfl
@[simp] theorem State.setPc_carryF (s : State) (t : Byte) : (s.setPc t).carryF = s.carryF := rfl
@[simp] theorem State.setPc_halted (s : State) (t : Byte) : (s.setPc t).halted = s.halted := rfl
@[simp] theorem State.setPc_ram (s : State) (t : Byte) : (s.setPc t).ram = s.ram := rfl
@[simp] theorem State.setPc_rom (s : State) (t : Byte) : (s.setPc t).rom = s.rom := rfl
@[simp] theorem State.setPc_out (s : State) (t : Byte) : (s.setPc t).out = s.out := rfl
@[simp] theorem State.setPc_input (s : State) (t : Byte) : (s.setPc t).input = s.input := rfl
@[simp] theorem State.setPc_draws (s : State) (t : Byte) : (s.setPc t).draws = s.draws := rfl
@[simp] theorem State.setPc_config (s : State) (t : Byte) : (s.setPc t).config = s.config := rfl
@[simp] theorem State.setPc_reg (s : State) (t : Byte) (q : Reg) : (s.setPc t).reg q = s.reg q := rfl
@[simp] theorem State.setPc_ramRead (s : State) (t : Byte) (b : Byte) : (s.setPc t).ramRead b = s.ramRead b := rfl
@[simp] theorem State.setPc_romRead (s : State) (t : Byte) (b : Byte) : (s.setPc t).romRead b = s.romRead b := rfl

/-! ## advance -/

@[simp] theorem State.advance_w (s : State) : (s.advance).w = s.w := rfl
@[simp] theorem State.advance_x (s : State) : (s.advance).x = s.x := rfl
@[simp] theorem State.advance_pc (s : State) : (s.advance).pc = s.pcNext := rfl
@[simp] theorem State.advance_zeroF (s : State) : (s.advance).zeroF = s.zeroF := rfl
@[simp] theorem State.advance_carryF (s : State) : (s.advance).carryF = s.carryF := rfl
@[simp] theorem State.advance_halted (s : State) : (s.advance).halted = s.halted := rfl
@[simp] theorem State.advance_ram (s : State) : (s.advance).ram = s.ram := rfl
@[simp] theorem State.advance_rom (s : State) : (s.advance).rom = s.rom := rfl
@[simp] theorem State.advance_out (s : State) : (s.advance).out = s.out := rfl
@[simp] theorem State.advance_input (s : State) : (s.advance).input = s.input := rfl
@[simp] theorem State.advance_draws (s : State) : (s.advance).draws = s.draws := rfl
@[simp] theorem State.advance_config (s : State) : (s.advance).config = s.config := rfl
@[simp] theorem State.advance_reg (s : State) (q : Reg) : (s.advance).reg q = s.reg q := rfl
@[simp] theorem State.advance_ramRead (s : State) (b : Byte) : (s.advance).ramRead b = s.ramRead b := rfl
@[simp] theorem State.advance_romRead (s : State) (b : Byte) : (s.advance).romRead b = s.romRead b := rfl

/-! ## advanceMarked -/

@[simp] theorem State.advanceMarked_w (s : State) : (s.advanceMarked).w = s.w := rfl
@[simp] theorem State.advanceMarked_x (s : State) : (s.advanceMarked).x = s.x := rfl
@[simp] theorem State.advanceMarked_pc (s : State) : (s.advanceMarked).pc = s.pcMarked := rfl
@[simp] theorem State.advanceMarked_zeroF (s : State) : (s.advanceMarked).zeroF = s.zeroF := rfl
@[simp] theorem State.advanceMarked_carryF (s : State) : (s.advanceMarked).carryF = s.carryF := rfl
@[simp] theorem State.advanceMarked_halted (s : State) : (s.advanceMarked).halted = s.halted := rfl
@[simp] theorem State.advanceMarked_ram (s : State) : (s.advanceMarked).ram = s.ram := rfl
@[simp] theorem State.advanceMarked_rom (s : State) : (s.advanceMarked).rom = s.rom := rfl
@[simp] theorem State.advanceMarked_out (s : State) : (s.advanceMarked).out = s.out := rfl
@[simp] theorem State.advanceMarked_input (s : State) : (s.advanceMarked).input = s.input := rfl
@[simp] theorem State.advanceMarked_draws (s : State) : (s.advanceMarked).draws = s.draws := rfl
@[simp] theorem State.advanceMarked_config (s : State) : (s.advanceMarked).config = s.config := rfl
@[simp] theorem State.advanceMarked_reg (s : State) (q : Reg) : (s.advanceMarked).reg q = s.reg q := rfl
@[simp] theorem State.advanceMarked_ramRead (s : State) (b : Byte) : (s.advanceMarked).ramRead b = s.ramRead b := rfl
@[simp] theorem State.advanceMarked_romRead (s : State) (b : Byte) : (s.advanceMarked).romRead b = s.romRead b := rfl

/-! ## halt -/

@[simp] theorem State.halt_w (s : State) : (s.halt).w = s.w := rfl
@[simp] theorem State.halt_x (s : State) : (s.halt).x = s.x := rfl
@[simp] theorem State.halt_pc (s : State) : (s.halt).pc = s.pc := rfl
@[simp] theorem State.halt_zeroF (s : State) : (s.halt).zeroF = s.zeroF := rfl
@[simp] theorem State.halt_carryF (s : State) : (s.halt).carryF = s.carryF := rfl
@[simp] theorem State.halt_halted (s : State) : (s.halt).halted = true := rfl
@[simp] theorem State.halt_ram (s : State) : (s.halt).ram = s.ram := rfl
@[simp] theorem State.halt_rom (s : State) : (s.halt).rom = s.rom := rfl
@[simp] theorem State.halt_out (s : State) : (s.halt).out = s.out := rfl
@[simp] theorem State.halt_input (s : State) : (s.halt).input = s.input := rfl
@[simp] theorem State.halt_draws (s : State) : (s.halt).draws = s.draws := rfl
@[simp] theorem State.halt_config (s : State) : (s.halt).config = s.config := rfl
@[simp] theorem State.halt_reg (s : State) (q : Reg) : (s.halt).reg q = s.reg q := rfl
@[simp] theorem State.halt_ramRead (s : State) (b : Byte) : (s.halt).ramRead b = s.ramRead b := rfl
@[simp] theorem State.halt_romRead (s : State) (b : Byte) : (s.halt).romRead b = s.romRead b := rfl

/-! ## ramWrite -/

@[simp] theorem State.ramWrite_w (s : State) (a v : Byte) : (s.ramWrite a v).w = s.w := rfl
@[simp] theorem State.ramWrite_x (s : State) (a v : Byte) : (s.ramWrite a v).x = s.x := rfl
@[simp] theorem State.ramWrite_pc (s : State) (a v : Byte) : (s.ramWrite a v).pc = s.pc := rfl
@[simp] theorem State.ramWrite_zeroF (s : State) (a v : Byte) : (s.ramWrite a v).zeroF = s.zeroF := rfl
@[simp] theorem State.ramWrite_carryF (s : State) (a v : Byte) : (s.ramWrite a v).carryF = s.carryF := rfl
@[simp] theorem State.ramWrite_halted (s : State) (a v : Byte) : (s.ramWrite a v).halted = s.halted := rfl
@[simp] theorem State.ramWrite_ram (s : State) (a v : Byte) : (s.ramWrite a v).ram = cellWrite ramUnlisted s.ram a.toNat v := rfl
@[simp] theorem State.ramWrite_rom (s : State) (a v : Byte) : (s.ramWrite a v).rom = s.rom := rfl
@[simp] theorem State.ramWrite_out (s : State) (a v : Byte) : (s.ramWrite a v).out = s.out := rfl
@[simp] theorem State.ramWrite_input (s : State) (a v : Byte) : (s.ramWrite a v).input = s.input := rfl
@[simp] theorem State.ramWrite_draws (s : State) (a v : Byte) : (s.ramWrite a v).draws = s.draws := rfl
@[simp] theorem State.ramWrite_config (s : State) (a v : Byte) : (s.ramWrite a v).config = s.config := rfl
@[simp] theorem State.ramWrite_reg (s : State) (a v : Byte) (q : Reg) : (s.ramWrite a v).reg q = s.reg q := rfl
@[simp] theorem State.ramWrite_romRead (s : State) (a v : Byte) (b : Byte) : (s.ramWrite a v).romRead b = s.romRead b := rfl

/-! ## romLoad -/

@[simp] theorem State.romLoad_w (s : State) (a : Byte) (v : Iw) : (s.romLoad a v).w = s.w := rfl
@[simp] theorem State.romLoad_x (s : State) (a : Byte) (v : Iw) : (s.romLoad a v).x = s.x := rfl
@[simp] theorem State.romLoad_pc (s : State) (a : Byte) (v : Iw) : (s.romLoad a v).pc = s.pc := rfl
@[simp] theorem State.romLoad_zeroF (s : State) (a : Byte) (v : Iw) : (s.romLoad a v).zeroF = s.zeroF := rfl
@[simp] theorem State.romLoad_carryF (s : State) (a : Byte) (v : Iw) : (s.romLoad a v).carryF = s.carryF := rfl
@[simp] theorem State.romLoad_halted (s : State) (a : Byte) (v : Iw) : (s.romLoad a v).halted = s.halted := rfl
@[simp] theorem State.romLoad_ram (s : State) (a : Byte) (v : Iw) : (s.romLoad a v).ram = s.ram := rfl
@[simp] theorem State.romLoad_rom (s : State) (a : Byte) (v : Iw) : (s.romLoad a v).rom = cellWrite romUnlisted s.rom a.toNat v := rfl
@[simp] theorem State.romLoad_out (s : State) (a : Byte) (v : Iw) : (s.romLoad a v).out = s.out := rfl
@[simp] theorem State.romLoad_input (s : State) (a : Byte) (v : Iw) : (s.romLoad a v).input = s.input := rfl
@[simp] theorem State.romLoad_draws (s : State) (a : Byte) (v : Iw) : (s.romLoad a v).draws = s.draws := rfl
@[simp] theorem State.romLoad_config (s : State) (a : Byte) (v : Iw) : (s.romLoad a v).config = s.config := rfl
@[simp] theorem State.romLoad_reg (s : State) (a : Byte) (v : Iw) (q : Reg) : (s.romLoad a v).reg q = s.reg q := rfl
@[simp] theorem State.romLoad_ramRead (s : State) (a : Byte) (v : Iw) (b : Byte) : (s.romLoad a v).ramRead b = s.ramRead b := rfl

/-! ## consumeInput -/

@[simp] theorem State.consumeInput_w (s : State) : (s.consumeInput).w = s.w := rfl
@[simp] theorem State.consumeInput_x (s : State) : (s.consumeInput).x = s.x := rfl
@[simp] theorem State.consumeInput_pc (s : State) : (s.consumeInput).pc = s.pc := rfl
@[simp] theorem State.consumeInput_zeroF (s : State) : (s.consumeInput).zeroF = s.zeroF := rfl
@[simp] theorem State.consumeInput_carryF (s : State) : (s.consumeInput).carryF = s.carryF := rfl
@[simp] theorem State.consumeInput_halted (s : State) : (s.consumeInput).halted = s.halted := rfl
@[simp] theorem State.consumeInput_ram (s : State) : (s.consumeInput).ram = s.ram := rfl
@[simp] theorem State.consumeInput_rom (s : State) : (s.consumeInput).rom = s.rom := rfl
@[simp] theorem State.consumeInput_out (s : State) : (s.consumeInput).out = s.out := rfl
@[simp] theorem State.consumeInput_input (s : State) : (s.consumeInput).input = s.input.tail := rfl
@[simp] theorem State.consumeInput_draws (s : State) : (s.consumeInput).draws = if s.input.isEmpty then s.draws + 1 else s.draws := rfl
@[simp] theorem State.consumeInput_config (s : State) : (s.consumeInput).config = s.config := rfl
@[simp] theorem State.consumeInput_reg (s : State) (q : Reg) : (s.consumeInput).reg q = s.reg q := rfl
@[simp] theorem State.consumeInput_ramRead (s : State) (b : Byte) : (s.consumeInput).ramRead b = s.ramRead b := rfl
@[simp] theorem State.consumeInput_romRead (s : State) (b : Byte) : (s.consumeInput).romRead b = s.romRead b := rfl

/-! ## output -/

@[simp] theorem State.output_w (s : State) (row v : Byte) : (s.output row v).w = s.w := rfl
@[simp] theorem State.output_x (s : State) (row v : Byte) : (s.output row v).x = s.x := rfl
@[simp] theorem State.output_pc (s : State) (row v : Byte) : (s.output row v).pc = s.pc := rfl
@[simp] theorem State.output_zeroF (s : State) (row v : Byte) : (s.output row v).zeroF = s.zeroF := rfl
@[simp] theorem State.output_carryF (s : State) (row v : Byte) : (s.output row v).carryF = s.carryF := rfl
@[simp] theorem State.output_halted (s : State) (row v : Byte) : (s.output row v).halted = s.halted := rfl
@[simp] theorem State.output_ram (s : State) (row v : Byte) : (s.output row v).ram = s.ram := rfl
@[simp] theorem State.output_rom (s : State) (row v : Byte) : (s.output row v).rom = s.rom := rfl
@[simp] theorem State.output_out (s : State) (row v : Byte) : (s.output row v).out = s.out ++ [(row, v)] := rfl
@[simp] theorem State.output_input (s : State) (row v : Byte) : (s.output row v).input = s.input := rfl
@[simp] theorem State.output_draws (s : State) (row v : Byte) : (s.output row v).draws = s.draws := rfl
@[simp] theorem State.output_config (s : State) (row v : Byte) : (s.output row v).config = s.config := rfl
@[simp] theorem State.output_reg (s : State) (row v : Byte) (q : Reg) : (s.output row v).reg q = s.reg q := rfl
@[simp] theorem State.output_ramRead (s : State) (row v : Byte) (b : Byte) : (s.output row v).ramRead b = s.ramRead b := rfl
@[simp] theorem State.output_romRead (s : State) (row v : Byte) (b : Byte) : (s.output row v).romRead b = s.romRead b := rfl

/-! ## alu -/

@[simp] theorem State.alu_w (s : State) (op : AluOp) (r : Byte) : (s.alu op r).w = aluResult op s.w r := rfl
@[simp] theorem State.alu_x (s : State) (op : AluOp) (r : Byte) : (s.alu op r).x = s.x := rfl
@[simp] theorem State.alu_pc (s : State) (op : AluOp) (r : Byte) : (s.alu op r).pc = s.pcNext := rfl
@[simp] theorem State.alu_zeroF (s : State) (op : AluOp) (r : Byte) : (s.alu op r).zeroF = aluZero op s.w r := rfl
@[simp] theorem State.alu_carryF (s : State) (op : AluOp) (r : Byte) : (s.alu op r).carryF = aluCarry s.config op s.w r s.carryF s.draws := rfl
@[simp] theorem State.alu_halted (s : State) (op : AluOp) (r : Byte) : (s.alu op r).halted = s.halted := rfl
@[simp] theorem State.alu_ram (s : State) (op : AluOp) (r : Byte) : (s.alu op r).ram = s.ram := rfl
@[simp] theorem State.alu_rom (s : State) (op : AluOp) (r : Byte) : (s.alu op r).rom = s.rom := rfl
@[simp] theorem State.alu_out (s : State) (op : AluOp) (r : Byte) : (s.alu op r).out = s.out := rfl
@[simp] theorem State.alu_input (s : State) (op : AluOp) (r : Byte) : (s.alu op r).input = s.input := rfl
@[simp] theorem State.alu_draws (s : State) (op : AluOp) (r : Byte) : (s.alu op r).draws = s.draws + aluDraws s.config op := rfl
@[simp] theorem State.alu_config (s : State) (op : AluOp) (r : Byte) : (s.alu op r).config = s.config := rfl
@[simp] theorem State.alu_reg (s : State) (op : AluOp) (r : Byte) (q : Reg) : (s.alu op r).reg q = s.reg q := rfl
@[simp] theorem State.alu_ramRead (s : State) (op : AluOp) (r : Byte) (b : Byte) : (s.alu op r).ramRead b = s.ramRead b := rfl
@[simp] theorem State.alu_romRead (s : State) (op : AluOp) (r : Byte) (b : Byte) : (s.alu op r).romRead b = s.romRead b := rfl

/-! ## placeWord -/

@[simp] theorem State.placeWord_w (s : State) (iw : Iw) : (s.placeWord iw).w = s.w := rfl
@[simp] theorem State.placeWord_x (s : State) (iw : Iw) : (s.placeWord iw).x = s.x := rfl
@[simp] theorem State.placeWord_pc (s : State) (iw : Iw) : (s.placeWord iw).pc = s.pc := rfl
@[simp] theorem State.placeWord_zeroF (s : State) (iw : Iw) : (s.placeWord iw).zeroF = s.zeroF := rfl
@[simp] theorem State.placeWord_carryF (s : State) (iw : Iw) : (s.placeWord iw).carryF = s.carryF := rfl
@[simp] theorem State.placeWord_halted (s : State) (iw : Iw) : (s.placeWord iw).halted = false := rfl
@[simp] theorem State.placeWord_ram (s : State) (iw : Iw) : (s.placeWord iw).ram = s.ram := rfl
@[simp] theorem State.placeWord_rom (s : State) (iw : Iw) : (s.placeWord iw).rom = cellWrite romUnlisted s.rom s.pc.toNat iw := rfl
@[simp] theorem State.placeWord_out (s : State) (iw : Iw) : (s.placeWord iw).out = s.out := rfl
@[simp] theorem State.placeWord_input (s : State) (iw : Iw) : (s.placeWord iw).input = s.input := rfl
@[simp] theorem State.placeWord_draws (s : State) (iw : Iw) : (s.placeWord iw).draws = s.draws := rfl
@[simp] theorem State.placeWord_config (s : State) (iw : Iw) : (s.placeWord iw).config = s.config := rfl
@[simp] theorem State.placeWord_reg (s : State) (iw : Iw) (q : Reg) : (s.placeWord iw).reg q = s.reg q := rfl
@[simp] theorem State.placeWord_ramRead (s : State) (iw : Iw) (b : Byte) : (s.placeWord iw).ramRead b = s.ramRead b := rfl

end Sys2Proof.Machine
end

