-- ==== Sys2Proof/Laws/Alu.lean ====
section
/-!
SUPPORT. What the operand forms and the ALU give, said once: each 8-bit result as the operation the spec names, bit 8 of
each arithmetic command as a comparison of numbers, and zeroF as a test of the result.
-/
namespace Sys2Proof.Machine

@[simp] theorem immOperand_eq (imm : Byte) : immOperand imm = imm := rfl
@[simp] theorem rowOperand_eq (row : Byte) : rowOperand row = row := rfl
@[simp] theorem dataAddress_eq (addr : Byte) : dataAddress addr = addr := rfl
@[simp] theorem jumpTarget_eq (addr : Byte) : jumpTarget addr = addr := rfl
@[simp] theorem State.rnOperand_eq (s : State) (rn : Reg) : s.rnOperand rn = s.reg rn := rfl

theorem aluResult_add (w r : Byte) : aluResult .add w r = w + r := by
  apply BitVec.eq_of_toNat_eq
  simp [aluResult, aluSum9, zext9, BitVec.toNat_add, BitVec.toNat_setWidth]

theorem aluResult_sub (w r : Byte) : aluResult .sub w r = w - r := by
  apply BitVec.eq_of_toNat_eq
  have := w.isLt
  have := r.isLt
  simp only [aluResult, aluSum9, zext9, BitVec.toNat_sub, BitVec.toNat_setWidth]
  omega

theorem aluResult_and (w r : Byte) : aluResult .and w r = w &&& r := by simp [aluResult, aluSum9, zext9]
theorem aluResult_or (w r : Byte) : aluResult .or w r = w ||| r := by simp [aluResult, aluSum9, zext9]
theorem aluResult_xor (w r : Byte) : aluResult .xor w r = w ^^^ r := by simp [aluResult, aluSum9, zext9]
theorem aluResult_not (w r : Byte) : aluResult .not w r = ~~~w := by simp [aluResult, aluSum9, zext9]

theorem aluResult_inc (w r : Byte) : aluResult .inc w r = w + 1 := by
  apply BitVec.eq_of_toNat_eq
  simp [aluResult, aluSum9, zext9, BitVec.toNat_add, BitVec.toNat_setWidth]

theorem aluResult_dec (w r : Byte) : aluResult .dec w r = w - 1 := by
  apply BitVec.eq_of_toNat_eq
  have := w.isLt
  simp only [aluResult, aluSum9, zext9, BitVec.toNat_sub, BitVec.toNat_setWidth]
  have h8 : (1 : Byte).toNat = 1 := rfl
  have h9 : (1 : BitVec 9).toNat = 1 := rfl
  omega

/-- Bit 8 of a 9-bit value, as a comparison. -/
theorem bit8_eq (v : BitVec 9) : v.getLsbD 8 = decide (256 ≤ v.toNat) := by
  have := v.isLt
  rw [Bool.eq_iff_iff]
  simp [BitVec.getLsbD, Nat.testBit, Nat.shiftRight_eq_div_pow]
  omega

/-- The carry of ADD. -/
theorem aluBit8_add (w r : Byte) : aluBit8 .add w r = decide (256 ≤ w.toNat + r.toNat) := by
  have := w.isLt
  have := r.isLt
  rw [aluBit8, bit8_eq, decide_eq_decide]
  simp only [aluSum9, zext9, BitVec.toNat_add, BitVec.toNat_setWidth]
  omega

/-- The borrow of SUB. -/
theorem aluBit8_sub (w r : Byte) : aluBit8 .sub w r = decide (w.toNat < r.toNat) := by
  have := w.isLt
  have := r.isLt
  rw [aluBit8, bit8_eq, decide_eq_decide]
  simp only [aluSum9, zext9, BitVec.toNat_sub, BitVec.toNat_setWidth]
  omega

/-- The carry of INC. -/
theorem aluBit8_inc (w r : Byte) : aluBit8 .inc w r = decide (w.toNat = 255) := by
  have := w.isLt
  rw [aluBit8, bit8_eq, decide_eq_decide]
  simp only [aluSum9, zext9, BitVec.toNat_add, BitVec.toNat_setWidth]
  have h9 : (1 : BitVec 9).toNat = 1 := rfl
  omega

/-- The borrow of DEC. -/
theorem aluBit8_dec (w r : Byte) : aluBit8 .dec w r = decide (w.toNat = 0) := by
  have := w.isLt
  rw [aluBit8, bit8_eq, decide_eq_decide]
  simp only [aluSum9, zext9, BitVec.toNat_sub, BitVec.toNat_setWidth]
  have h9 : (1 : BitVec 9).toNat = 1 := rfl
  omega

theorem aluZero_iff (op : AluOp) (w r : Byte) : aluZero op w r = true ↔ aluResult op w r = 0x00#8 := by
  simp [aluZero]

/-- The ALU commands other than the logic ones draw no free value. -/
theorem aluDraws_arith (c : Config) (op : AluOp) (h : op.isLogic = false) : aluDraws c op = 0 := by
  simp [aluDraws, h]

/-- The carry of the four logic commands is that of P_CARRY_LOGIC. -/
theorem aluCarry_logic (c : Config) (op : AluOp) (h : op.isLogic = true) (w r : Byte) (old : Bool) (n : Nat) :
    aluCarry c op w r old n = carryOfLogic c old n := by
  cases op <;> first | rfl | cases h

end Sys2Proof.Machine
end

