-- ==== Sys2Proof/Laws/Encoding.lean ====
section
/-!
SUPPORT. The small lemmas of the fields of a word: what the fields of an assembled word are, and that the fields of any
word assemble to it.
-/
namespace Sys2Proof

theorem opcodeField_append (op : Opcode) (b : Byte) : opcodeField (op ++ b) = op := by
  apply BitVec.eq_of_getLsbD_eq
  intro k hk
  simp only [opcodeField, BitVec.getLsbD_extractLsb', BitVec.getLsbD_append]
  simp [hk, show ¬ (8 + k < 8) by omega]

theorem operandField_append (op : Opcode) (b : Byte) : operandField (op ++ b) = b := by
  apply BitVec.eq_of_getLsbD_eq
  intro k hk
  simp only [operandField, BitVec.getLsbD_extractLsb', BitVec.getLsbD_append]
  simp [hk]

theorem fields_append (iw : Iw) : opcodeField iw ++ operandField iw = iw := by
  apply BitVec.eq_of_getLsbD_eq
  intro k hk
  simp only [opcodeField, operandField, BitVec.getLsbD_append, BitVec.getLsbD_extractLsb']
  by_cases h : k < 8
  · simp [h]
  · simp [h, show k - 8 < 5 by omega, show 8 + (k - 8) = k by omega]

theorem regCodeField_append (u : BitVec 5) (c : BitVec 3) : regCodeField (u ++ c) = c := by
  apply BitVec.eq_of_getLsbD_eq
  intro k hk
  simp only [regCodeField, BitVec.getLsbD_extractLsb', BitVec.getLsbD_append]
  simp [hk]

theorem unusedField_append (u : BitVec 5) (c : BitVec 3) : unusedField (u ++ c) = u := by
  apply BitVec.eq_of_getLsbD_eq
  intro k hk
  simp only [unusedField, BitVec.getLsbD_extractLsb', BitVec.getLsbD_append]
  simp [hk, show ¬ (3 + k < 3) by omega]

theorem operandFields_append (b : Byte) : (unusedField b ++ regCodeField b : Byte) = b := by
  apply BitVec.eq_of_getLsbD_eq
  intro k hk
  simp only [unusedField, regCodeField, BitVec.getLsbD_append, BitVec.getLsbD_extractLsb']
  by_cases h : k < 3
  · simp [h]
  · simp [h, show k - 3 < 5 by omega, show 3 + (k - 3) = k by omega]

theorem Reg.ofCode_code (r : Reg) : Reg.ofCode r.code = r := by cases r <;> rfl

theorem Reg.code_ofCode : ∀ c : BitVec 3, (Reg.ofCode c).code = c := by decide

theorem unusedField_operandR (u : BitVec 5) (rn : Reg) : unusedField (operandR u rn) = u := unusedField_append u rn.code

theorem regOfOperandR (u : BitVec 5) (rn : Reg) : Reg.ofCode (regCodeField (operandR u rn)) = rn := by
  rw [operandR, regCodeField_append, Reg.ofCode_code]

theorem operandR_fields (b : Byte) : operandR (unusedField b) (Reg.ofCode (regCodeField b)) = b := by
  rw [operandR, Reg.code_ofCode, operandFields_append]

/-- What an opcode and an operand byte decode to, encoded again: the one inversion lemma of `instrOf`. -/
theorem instrOf_inv (op : Opcode) (b : Byte) (i : Instr) (h : instrOf op b = some i) :
    i.opcode = op ∧ i.operand = b := by
  unfold instrOf at h
  split at h <;> first
    | (cases h; exact ⟨rfl, rfl⟩)
    | (cases h; exact ⟨rfl, operandR_fields b⟩)
    | cases h

end Sys2Proof
end

