-- ==== Sys2Proof/Laws/Memory.lean ====
section
/-!
SUPPORT. The laws of memory and of the register file: reading what was written, leaving the rest alone, and the canonical
form, which every memory operation keeps.
-/
namespace Sys2Proof.Machine

/-! ## One cell -/

theorem cellRead_cellErase {n : Nat} (d : BitVec n) (m : List (Nat × BitVec n)) (a b : Nat) :
    cellRead d (cellErase m a) b = if b = a then d else cellRead d m b := by
  induction m with
  | nil => simp [cellErase, cellRead]
  | cons c m ih =>
    obtain ⟨k, u⟩ := c
    simp only [cellErase, cellRead]
    by_cases hk : k = a
    · rw [if_pos hk, ih]
      by_cases hb : b = a
      · simp [hb]
      · simp [hk, hb, Ne.symm hb]
    · by_cases hb : k = b
      · subst hb; simp [hk, cellRead]
      · simp [hk, hb, cellRead, ih]

theorem cellRead_cellInsert {n : Nat} (d : BitVec n) (m : List (Nat × BitVec n)) (a : Nat) (v : BitVec n) (b : Nat) :
    cellRead d (cellInsert m a v) b = if b = a then v else cellRead d m b := by
  induction m with
  | nil => by_cases h : a = b <;> simp [cellInsert, cellRead, h, eq_comm]
  | cons c m ih =>
    obtain ⟨k, u⟩ := c
    by_cases hb : b = a
    · subst hb
      simp only [cellInsert]
      split
      · simp [cellRead]
      · split
        · simp [cellRead]
        · rename_i h; simp [cellRead, h, ih]
    · simp only [cellInsert]
      split
      · simp [cellRead, Ne.symm hb]
      · split
        · rename_i h; subst h; simp [cellRead, Ne.symm hb]
        · simp [cellRead, ih, hb]

/-- A read after a write gives the value written, and every other cell reads as before. -/
theorem cellRead_cellWrite {n : Nat} (d : BitVec n) (m : List (Nat × BitVec n)) (a : Nat) (v : BitVec n) (b : Nat) :
    cellRead d (cellWrite d m a v) b = if b = a then v else cellRead d m b := by
  unfold cellWrite
  split
  · rename_i h; rw [cellRead_cellErase, h]
  · exact cellRead_cellInsert d m a v b

/-! ## The canonical form -/

theorem cellsWfFrom_mono {n : Nat} (d : BitVec n) (m : List (Nat × BitVec n)) (lo lo' : Nat) (h : lo' ≤ lo)
    (hm : cellsWfFrom d lo m = true) : cellsWfFrom d lo' m = true := by
  cases m with
  | nil => rfl
  | cons c m =>
    obtain ⟨k, u⟩ := c
    simp only [cellsWfFrom, Bool.and_eq_true, decide_eq_true_eq] at hm ⊢
    exact ⟨⟨⟨Nat.le_trans h hm.1.1.1, hm.1.1.2⟩, hm.1.2⟩, hm.2⟩

theorem cellErase_wf {n : Nat} (d : BitVec n) (m : List (Nat × BitVec n)) (lo a : Nat)
    (hm : cellsWfFrom d lo m = true) : cellsWfFrom d lo (cellErase m a) = true := by
  induction m generalizing lo with
  | nil => rfl
  | cons c m ih =>
    obtain ⟨k, u⟩ := c
    simp only [cellsWfFrom, Bool.and_eq_true, decide_eq_true_eq] at hm
    simp only [cellErase]
    split
    · exact cellsWfFrom_mono d _ (k + 1) lo (Nat.le_succ_of_le hm.1.1.1) (ih (k + 1) hm.2)
    · simp only [cellsWfFrom, Bool.and_eq_true, decide_eq_true_eq]
      exact ⟨hm.1, ih (k + 1) hm.2⟩

theorem cellInsert_wf {n : Nat} (d : BitVec n) (m : List (Nat × BitVec n)) (lo a : Nat) (v : BitVec n)
    (hm : cellsWfFrom d lo m = true) (hlo : lo ≤ a) (ha : a < 256) (hv : v ≠ d) :
    cellsWfFrom d lo (cellInsert m a v) = true := by
  induction m generalizing lo with
  | nil => simp [cellInsert, cellsWfFrom, hlo, ha, hv]
  | cons c m ih =>
    obtain ⟨k, u⟩ := c
    simp only [cellsWfFrom, Bool.and_eq_true, decide_eq_true_eq] at hm
    simp only [cellInsert]
    split
    · rename_i h
      simp only [cellsWfFrom, Bool.and_eq_true, decide_eq_true_eq]
      exact ⟨⟨⟨hlo, ha⟩, hv⟩, ⟨⟨⟨h, hm.1.1.2⟩, hm.1.2⟩, hm.2⟩⟩
    · split
      · rename_i h
        subst h
        simp only [cellsWfFrom, Bool.and_eq_true, decide_eq_true_eq]
        exact ⟨⟨⟨hlo, ha⟩, hv⟩, hm.2⟩
      · rename_i h1 h2
        simp only [cellsWfFrom, Bool.and_eq_true, decide_eq_true_eq]
        exact ⟨hm.1, ih (k + 1) hm.2 (by omega)⟩

theorem cellWrite_wf {n : Nat} (d : BitVec n) (m : List (Nat × BitVec n)) (a : Nat) (v : BitVec n)
    (hm : cellsWf d m = true) (ha : a < 256) : cellsWf d (cellWrite d m a v) = true := by
  unfold cellWrite cellsWf at *
  split
  · exact cellErase_wf d m 0 a hm
  · rename_i hv; exact cellInsert_wf d m 0 a v hm (Nat.zero_le _) ha hv

/-! ## Whole images -/

theorem cellsOf_wf {w : Nat} (d : BitVec w) (f : Nat → BitVec w) (n lo : Nat) (h : lo + n ≤ 256) :
    cellsWfFrom d lo (cellsOf d f n lo) = true := by
  induction n generalizing lo with
  | zero => rfl
  | succ n ih =>
    simp only [cellsOf]
    split
    · exact cellsWfFrom_mono d _ (lo + 1) lo (Nat.le_succ lo) (ih (lo + 1) (by omega))
    · rename_i hv
      simp only [cellsWfFrom, Bool.and_eq_true, decide_eq_true_eq]
      exact ⟨⟨⟨Nat.le_refl _, by omega⟩, hv⟩, ih (lo + 1) (by omega)⟩

theorem cellRead_cellsOf {w : Nat} (d : BitVec w) (f : Nat → BitVec w) (n lo a : Nat) :
    cellRead d (cellsOf d f n lo) a = if lo ≤ a ∧ a < lo + n then f a else d := by
  induction n generalizing lo with
  | zero => simp only [cellsOf, cellRead]; split <;> first | omega | rfl
  | succ n ih =>
    simp only [cellsOf]
    split
    · rename_i h
      rw [ih]
      by_cases e : a = lo
      · subst e; simp [h]
      · split <;> split <;> first | rfl | omega
    · simp only [cellRead]
      split
      · rename_i e; subst e; simp
      · rw [ih]; split <;> split <;> first | rfl | omega

/-! ## RAM, ROM and the register file -/

/-- A RAM read after a RAM write (R64). -/
@[simp] theorem State.ramWrite_ramRead (s : State) (a v b : Byte) :
    (s.ramWrite a v).ramRead b = if b = a then v else s.ramRead b := by
  simp only [State.ramRead, State.ramWrite, cellRead_cellWrite, BitVec.toNat_inj]

/-- A fetch after a word has been loaded. -/
@[simp] theorem State.romLoad_romRead (s : State) (a : Byte) (v : Iw) (b : Byte) :
    (s.romLoad a v).romRead b = if b = a then v else s.romRead b := by
  simp only [State.romRead, State.romLoad, cellRead_cellWrite, BitVec.toNat_inj]

/-- What the next step fetches after a word has been placed for it. -/
@[simp] theorem State.placeWord_fetchWord (s : State) (iw : Iw) : (s.placeWord iw).fetchWord = iw := by
  have h := State.romLoad_romRead s s.pc iw s.pc
  simpa [State.fetchWord, State.placeWord, State.romRead, State.romLoad] using h

theorem RegFile.get_set (x : RegFile) (r q : Reg) (v : Byte) :
    (x.set r v).get q = if q = r then v else x.get q := by
  cases r <;> cases q <;> rfl

/-- Reading the register file after one register has been written. -/
@[simp] theorem State.setReg_reg (s : State) (r q : Reg) (v : Byte) :
    (s.setReg r v).reg q = if q = r then v else s.reg q := RegFile.get_set s.x r q v

/-- A RAM write keeps both memories canonical. -/
theorem Memory.wf_ramWrite (s : State) (a v : Byte) (h : Memory.wf s = true) : Memory.wf (s.ramWrite a v) = true := by
  simp only [Memory.wf, Bool.and_eq_true] at h ⊢
  exact ⟨cellWrite_wf _ _ _ _ h.1 a.isLt, h.2⟩

/-- Loading a word keeps both memories canonical. -/
theorem Memory.wf_romLoad (s : State) (a : Byte) (v : Iw) (h : Memory.wf s = true) :
    Memory.wf (s.romLoad a v) = true := by
  simp only [Memory.wf, Bool.and_eq_true] at h ⊢
  exact ⟨h.1, cellWrite_wf _ _ _ _ h.2 a.isLt⟩

/-- Placing a word keeps both memories canonical. -/
theorem Memory.wf_placeWord (s : State) (iw : Iw) (h : Memory.wf s = true) : Memory.wf (s.placeWord iw) = true :=
  Memory.wf_romLoad s s.pc iw h

/-- The canonical form depends on the two memories alone. -/
theorem Memory.wf_congr (s t : State) (hr : t.ram = s.ram) (hp : t.rom = s.rom) : Memory.wf t = Memory.wf s := by
  simp only [Memory.wf, hr, hp]

/-- The memories of the state after reset are canonical: nothing is listed. -/
theorem Memory.wf_reset : Memory.wf State.reset = true := rfl

/-- The memories of a launch state, for any images, are canonical. -/
theorem ramOfImage_wf (f : Byte → Byte) : cellsWf ramUnlisted (ramOfImage f) = true :=
  cellsOf_wf _ _ 256 0 (by omega)

theorem romOfImage_wf (f : Byte → Iw) : cellsWf romUnlisted (romOfImage f) = true :=
  cellsOf_wf _ _ 256 0 (by omega)

/-- A whole image reads back at every address. -/
theorem cellRead_ramOfImage (f : Byte → Byte) (a : Byte) : cellRead ramUnlisted (ramOfImage f) a.toNat = f a := by
  have h : a.toNat < 256 := a.isLt
  simp [ramOfImage, cellRead_cellsOf, h]

theorem cellRead_romOfImage (f : Byte → Iw) (a : Byte) : cellRead romUnlisted (romOfImage f) a.toNat = f a := by
  have h : a.toNat < 256 := a.isLt
  simp [romOfImage, cellRead_cellsOf, h]

end Sys2Proof.Machine
end

