-- ==== Sys2Proof/Laws/Exec.lean ====
section
/-!
SUPPORT. What each shared operation and the step can do, said once: the next state of every instruction over the named
updates, when decoding and fetching answer an instruction, and when the step answers a next state.
-/
namespace Sys2Proof.Machine

/-! ## The next state of each instruction -/

theorem exec_nop (u : Byte) (s : State) : exec (.nop u) s = .next s.advance := rfl
theorem exec_loadi (imm : Byte) (s : State) : exec (.loadi imm) s = .next (s.setW imm).advance := rfl
theorem exec_loada (addr : Byte) (s : State) : exec (.loada addr) s = .next (s.setW (s.ramRead addr)).advance := rfl
theorem exec_store (addr : Byte) (s : State) : exec (.store addr) s = .next (s.ramWrite addr s.w).advance := rfl
theorem exec_mov (u : BitVec 5) (rn : Reg) (s : State) : exec (.mov u rn) s = .next (s.setW (s.reg rn)).advance := rfl
theorem exec_movw (u : BitVec 5) (rn : Reg) (s : State) : exec (.movw u rn) s = .next (s.setReg rn s.w).advance := rfl
theorem exec_set (u : Byte) (s : State) : exec (.set u) s = .next (s.setW 0xFF#8).advance := rfl
theorem exec_clear (u : Byte) (s : State) : exec (.clear u) s = .next (s.setW 0x00#8).advance := rfl
theorem exec_add (u : BitVec 5) (rn : Reg) (s : State) : exec (.add u rn) s = .next (s.alu .add (s.reg rn)) := rfl
theorem exec_sub (u : BitVec 5) (rn : Reg) (s : State) : exec (.sub u rn) s = .next (s.alu .sub (s.reg rn)) := rfl
theorem exec_and (u : BitVec 5) (rn : Reg) (s : State) : exec (.and u rn) s = .next (s.alu .and (s.reg rn)) := rfl
theorem exec_or (u : BitVec 5) (rn : Reg) (s : State) : exec (.or u rn) s = .next (s.alu .or (s.reg rn)) := rfl
theorem exec_xor (u : BitVec 5) (rn : Reg) (s : State) : exec (.xor u rn) s = .next (s.alu .xor (s.reg rn)) := rfl
theorem exec_not (u : Byte) (s : State) : exec (.not u) s = .next (s.alu .not 0) := rfl
theorem exec_inc (u : Byte) (s : State) : exec (.inc u) s = .next (s.alu .inc 0) := rfl
theorem exec_dec (u : Byte) (s : State) : exec (.dec u) s = .next (s.alu .dec 0) := rfl
theorem exec_jmp (addr : Byte) (s : State) : exec (.jmp addr) s = .next (s.setPc addr) := rfl
theorem exec_hlt (u : Byte) (s : State) : exec (.hlt u) s = .next s.halt := rfl
theorem exec_inp (u : Byte) (s : State) :
    exec (.inp u) s = .next (s.consumeInput.setW s.inputByte).advanceMarked := rfl
theorem exec_out (row : Byte) (s : State) : exec (.out row) s = .next (s.output row s.w).advanceMarked := rfl

theorem exec_jz (addr : Byte) (s : State) :
    exec (.jz addr) s = .next (s.setPc (if s.zeroF then addr else s.pcMarked)) := by
  cases h : s.zeroF <;> simp [exec, execJz, h, jumpTarget, State.advanceMarked]

theorem exec_jc (addr : Byte) (s : State) :
    exec (.jc addr) s = .next (s.setPc (if s.carryF then addr else s.pcMarked)) := by
  cases h : s.carryF <;> simp [exec, execJc, h, jumpTarget, State.advanceMarked]

/-- Every instruction leaves every RAM cell as it was, but for the one a STORE names. -/
theorem exec_ramRead (i : Instr) (s t : State) (b : Byte) (h : exec i s = .next t) (hb : i ≠ .store b) :
    t.ramRead b = s.ramRead b := by
  cases i with
  | store a =>
    rw [exec_store] at h; cases h
    have : b ≠ a := fun e => hb (by rw [e])
    simp [this]
  | jz a => rw [exec_jz] at h; cases h; rfl
  | jc a => rw [exec_jc] at h; cases h; rfl
  | _ => cases h; rfl

/-! ## Decoding, fetching, stepping -/

/-- When decoding answers an instruction. -/
theorem decode_ok_iff (strict : Bool) (iw : Iw) (i : Instr) :
    decode strict iw = .ok i ↔
      instrOf (opcodeField iw) (operandField iw) = some i ∧ (strict = true → i.wellFormed = true) := by
  unfold decode
  split
  · rename_i h; simp [h]
  · rename_i j h
    rw [h]
    cases strict <;> cases hw : j.wellFormed <;> simp <;> (intro e; subst e; exact hw)

/-- A word that decodes is run as what it decodes to. -/
theorem instrUnder_of_decode (c : Config) (iw : Iw) (i : Instr) (h : decode c.strictOperands iw = .ok i) :
    instrUnder c iw = .ok i := by
  unfold instrUnder; rw [h]

/-- When the step answers a next state: the machine runs, and the instruction fetched answers it. -/
theorem step_next_iff (s t : State) :
    step s = .next t ↔ s.halted = false ∧ ∃ i, s.fetchInstr = .ok i ∧ exec i s = .next t := by
  unfold step
  cases s.halted with
  | true => simp
  | false =>
    cases s.fetchInstr with
    | error f => simp
    | ok i => simp

end Sys2Proof.Machine
end

