-- ==== Sys2Proof/Laws/PerInstr.lean ====
section
/-!
SUPPORT. The statements made instruction by instruction (LAWS.json, family Fields): the two fields of an instruction's word
are its opcode and its operand byte, and its opcode
is an assigned one.
-/
namespace Sys2Proof.Laws.Fields

/-- The word of `i` carries its opcode and its operand (R105), and its opcode is one of 0x00 to 0x15 (R95). -/
def Statement (i : Instr) : Prop :=
  opcodeField (encode i) = i.opcode ∧ operandField (encode i) = i.operand ∧ i.opcode.toNat ≤ 0x15

theorem nop (u : Byte) : Statement (.nop u) :=
  ⟨opcodeField_append _ _, operandField_append _ _, Nat.le_of_ble_eq_true rfl⟩

theorem loadi (imm : Byte) : Statement (.loadi imm) :=
  ⟨opcodeField_append _ _, operandField_append _ _, Nat.le_of_ble_eq_true rfl⟩

theorem loada (addr : Byte) : Statement (.loada addr) :=
  ⟨opcodeField_append _ _, operandField_append _ _, Nat.le_of_ble_eq_true rfl⟩

theorem store (addr : Byte) : Statement (.store addr) :=
  ⟨opcodeField_append _ _, operandField_append _ _, Nat.le_of_ble_eq_true rfl⟩

theorem mov (u : BitVec 5) (rn : Reg) : Statement (.mov u rn) :=
  ⟨opcodeField_append _ _, operandField_append _ _, Nat.le_of_ble_eq_true rfl⟩

theorem movw (u : BitVec 5) (rn : Reg) : Statement (.movw u rn) :=
  ⟨opcodeField_append _ _, operandField_append _ _, Nat.le_of_ble_eq_true rfl⟩

theorem set (u : Byte) : Statement (.set u) :=
  ⟨opcodeField_append _ _, operandField_append _ _, Nat.le_of_ble_eq_true rfl⟩

theorem clear (u : Byte) : Statement (.clear u) :=
  ⟨opcodeField_append _ _, operandField_append _ _, Nat.le_of_ble_eq_true rfl⟩

theorem add (u : BitVec 5) (rn : Reg) : Statement (.add u rn) :=
  ⟨opcodeField_append _ _, operandField_append _ _, Nat.le_of_ble_eq_true rfl⟩

theorem sub (u : BitVec 5) (rn : Reg) : Statement (.sub u rn) :=
  ⟨opcodeField_append _ _, operandField_append _ _, Nat.le_of_ble_eq_true rfl⟩

theorem and (u : BitVec 5) (rn : Reg) : Statement (.and u rn) :=
  ⟨opcodeField_append _ _, operandField_append _ _, Nat.le_of_ble_eq_true rfl⟩

theorem or (u : BitVec 5) (rn : Reg) : Statement (.or u rn) :=
  ⟨opcodeField_append _ _, operandField_append _ _, Nat.le_of_ble_eq_true rfl⟩

theorem xor (u : BitVec 5) (rn : Reg) : Statement (.xor u rn) :=
  ⟨opcodeField_append _ _, operandField_append _ _, Nat.le_of_ble_eq_true rfl⟩

theorem not (u : Byte) : Statement (.not u) :=
  ⟨opcodeField_append _ _, operandField_append _ _, Nat.le_of_ble_eq_true rfl⟩

theorem inc (u : Byte) : Statement (.inc u) :=
  ⟨opcodeField_append _ _, operandField_append _ _, Nat.le_of_ble_eq_true rfl⟩

theorem dec (u : Byte) : Statement (.dec u) :=
  ⟨opcodeField_append _ _, operandField_append _ _, Nat.le_of_ble_eq_true rfl⟩

theorem jmp (addr : Byte) : Statement (.jmp addr) :=
  ⟨opcodeField_append _ _, operandField_append _ _, Nat.le_of_ble_eq_true rfl⟩

theorem jz (addr : Byte) : Statement (.jz addr) :=
  ⟨opcodeField_append _ _, operandField_append _ _, Nat.le_of_ble_eq_true rfl⟩

theorem jc (addr : Byte) : Statement (.jc addr) :=
  ⟨opcodeField_append _ _, operandField_append _ _, Nat.le_of_ble_eq_true rfl⟩

theorem hlt (u : Byte) : Statement (.hlt u) :=
  ⟨opcodeField_append _ _, operandField_append _ _, Nat.le_of_ble_eq_true rfl⟩

theorem inp (u : Byte) : Statement (.inp u) :=
  ⟨opcodeField_append _ _, operandField_append _ _, Nat.le_of_ble_eq_true rfl⟩

theorem out (row : Byte) : Statement (.out row) :=
  ⟨opcodeField_append _ _, operandField_append _ _, Nat.le_of_ble_eq_true rfl⟩

end Sys2Proof.Laws.Fields
end

