-- ==== Sys2Proof/Tests/Slice0.lean ====
section
/-!
SUPPORT. Tests: words written out bit by bit from the encoding table (30_encoding.md T-95) decode as they should, the
well-formedness checks refuse an ill-formed term each, one step of each instruction gives what 95_test_vectors.md sections
2.2 to 2.8 expect, and for each statement with hypotheses a concrete case meets them.
-/
namespace Sys2Proof.Tests
open Sys2Proof.Machine

/-! ## Decoding: opcode bits as the opcode tables print them, then the operand -/

theorem test_decode_nop : decode true 0b0000000000000#13 = .ok (.nop 0) := by decide
theorem test_decode_loadi : decode true 0b0000100101010#13 = .ok (.loadi 0x2A) := by decide
theorem test_decode_loada : decode true 0b0001010000000#13 = .ok (.loada 0x80) := by decide
theorem test_decode_store : decode true 0b0001111111111#13 = .ok (.store 0xFF) := by decide
theorem test_decode_mov : decode true 0b0010000000101#13 = .ok (.mov 0 .sp) := by decide
theorem test_decode_movw : decode true 0b0010100000111#13 = .ok (.movw 0 .ma) := by decide
theorem test_decode_set : decode true 0b0011000000000#13 = .ok (.set 0) := by decide
theorem test_decode_clear : decode true 0b0011100000000#13 = .ok (.clear 0) := by decide
theorem test_decode_add : decode true 0b0100000000011#13 = .ok (.add 0 .r3) := by decide
theorem test_decode_sub : decode true 0b0100100000110#13 = .ok (.sub 0 .md) := by decide
theorem test_decode_and : decode true 0b0101000000000#13 = .ok (.and 0 .r0) := by decide
theorem test_decode_or : decode true 0b0101100000100#13 = .ok (.or 0 .r4) := by decide
theorem test_decode_xor : decode true 0b0110000000010#13 = .ok (.xor 0 .r2) := by decide
theorem test_decode_not : decode true 0b0110100000000#13 = .ok (.not 0) := by decide
theorem test_decode_inc : decode true 0b0111000000000#13 = .ok (.inc 0) := by decide
theorem test_decode_dec : decode true 0b0111100000000#13 = .ok (.dec 0) := by decide
theorem test_decode_jmp : decode true 0b1000001000000#13 = .ok (.jmp 0x40) := by decide
theorem test_decode_jz : decode true 0b1000100000101#13 = .ok (.jz 0x05) := by decide
theorem test_decode_jc : decode true 0b1001000001010#13 = .ok (.jc 0x0A) := by decide
theorem test_decode_hlt : decode true 0b1001100000000#13 = .ok (.hlt 0) := by decide
theorem test_decode_in : decode true 0b1010000000000#13 = .ok (.inp 0) := by decide
theorem test_decode_out : decode true 0b1010100000111#13 = .ok (.out 0x07) := by decide
/-- Section 2.1: the lowest and the highest word with an unassigned opcode. -/
theorem test_decode_illegal :
    decode false 0b1011000000000#13 = .error (.illegalOpcode 0x1600#13) ∧
    decode false 0b1111111111111#13 = .error (.illegalOpcode 0x1FFF#13) := by decide
/-- Section 2.1: the non-canonical words 0x080B, 0x04FD, 0x0612 and 0x13FF. -/
theorem test_decode_noncanonical :
    decode false 0x080B#13 = .ok (.add 0b00001#5 .r3) ∧ decode false 0x04FD#13 = .ok (.mov 0b11111#5 .sp) ∧
    decode false 0x0612#13 = .ok (.set 0x12) ∧ decode false 0x13FF#13 = .ok (.hlt 0xFF) ∧
    decode true 0x080B#13 = .error (.nonCanonicalOperand 0x080B#13) := by decide
/-- The register codes of T-23. -/
theorem test_register_codes :
    (List.range 8).map (fun c => Reg.ofCode (BitVec.ofNat 3 c)) = [.r0, .r1, .r2, .r3, .r4, .sp, .md, .ma] := by decide
/-- The host's numbering: a row's word, and a number with a bit above the word. -/
theorem test_decodeTableWord :
    decodeTableWord 16 0x0803 = some (.add 0 .r3) ∧ decodeTableWord 13 0x1507 = some (.out 0x07) ∧
    decodeTableWord 16 0x1600 = none ∧ decodeTableWord 16 0x2803 = none := by decide
/-- R100: the spellings of the opcode tables. -/
theorem test_asm :
    (Instr.mov 0 .sp).asm = "MOV Wreg SP".toList ∧ (Instr.movw 0 .ma).asm = "MOVW MA Wreg".toList ∧
    (Instr.loada 0x80).asm = "LOADA Wreg [0x80]".toList ∧ (Instr.out 0x07).asm = "OUT Wreg 0x07".toList ∧
    (Instr.jz 0x4A).asm = "JZ [0x4A]".toList ∧ (Instr.hlt 0).asm = "HLT".toList := by decide

/-! ## Well-formedness: an ill-formed term for each check -/

theorem test_illformed_refused :
    [Instr.nop 1, .mov 1 .r0, .movw 1 .r0, .set 0x12, .clear 1, .add 1 .r3, .sub 1 .r0, .and 1 .r0, .or 1 .r0,
      .xor 16 .r0, .not 1, .inc 1, .dec 0x80, .hlt 0xFF, .inp 1].map Instr.wellFormed = List.replicate 15 false := by
  decide
theorem test_wellformed_accepted :
    [Instr.nop 0, .loadi 0xFF, .loada 0xFF, .store 0xFF, .mov 0 .ma, .jmp 0xFF, .jz 0xFF, .jc 0xFF, .out 0xFF].map
      Instr.wellFormed = List.replicate 9 true := by decide
/-- Ill-formed memories: out of order, an address above 255, an entry that need not be listed. -/
theorem test_memory_form :
    cellsWf ramUnlisted [(2, 1#8), (1, 1#8)] = false ∧ cellsWf ramUnlisted [(256, 1#8)] = false ∧
    cellsWf ramUnlisted [(3, 0#8)] = false ∧ cellsWf ramUnlisted [(3, 1#8), (255, 2#8)] = true := by decide

/-! ## One step of each instruction -/

/-- The state after an outcome, seen through `f`. -/
def after {α : Type} (f : State → α) : Host.Outcome State Fault Refusal → Option α
  | .next t => some (f t)
  | .fault _ => none
  | .refused _ => none

/-- The fault of an outcome. -/
def faultOf : Host.Outcome State Fault Refusal → Option Fault
  | .next _ => none
  | .fault f => some f
  | .refused _ => none

/-- A state with a word at `pc` = 0x10. -/
def vec (iw : Iw) (w : Byte) (z c : Bool) : State :=
  ({ State.reset with pc := 0x10, w := w, zeroF := z, carryF := c } : State).placeWord iw

/-- The same with R3 holding `r`, as sections 2.3 and 2.5 have it. -/
def vec3 (iw : Iw) (w r : Byte) (z c : Bool) : State := (vec iw w z c).setReg .r3 r

/-- The same under other parameters. -/
def vecUnder (cfg : Config) (s : State) : State := { s with config := cfg }

/-- W, zeroF, carryF and `pc`. -/
def wzcp (t : State) : Byte × Bool × Bool × Byte := (t.w, t.zeroF, t.carryF, t.pc)

-- section 2.2
theorem test_nop : after wzcp (step (vec 0x0000 0x31 true true)) = some (0x31, true, true, 0x11) := by decide
theorem test_nop_wraps : after (·.pc) (step (({ State.reset with pc := 0xFF } : State).placeWord 0x0000)) = some 0x00 := by
  decide
theorem test_loadi : after wzcp (step (vec 0x0100 0x31 false true)) = some (0x00, false, true, 0x11) := by decide
theorem test_loada :
    after wzcp (step ((vec 0x0280 0x00 true true).ramWrite 0x80 0x5C)) = some (0x5C, true, true, 0x11) := by decide
theorem test_store :
    after (fun t => (t.ramRead 0x20, t.ramRead 0x21, t.w, t.pc)) (step ((vec 0x0320 0x0C true true).ramWrite 0x20 0xEE))
      = some (0x0C, 0x00, 0x0C, 0x11) := by decide
theorem test_store_last_cell :
    after (fun t => (t.ramRead 0xFF, t.ramRead 0x00)) (step (vec 0x03FF 0x01 true true)) = some (0x01, 0x00) := by decide
theorem test_mov :
    after (fun t => (wzcp t, t.reg .sp)) (step ((vec 0x0405 0x00 true true).setReg .sp 0xF0))
      = some ((0xF0, true, true, 0x11), 0xF0) := by decide
theorem test_movw :
    after (fun t => (t.reg .ma, t.reg .md, t.w, t.ram)) (step (vec 0x0507 0x42 true true)) = some (0x42, 0x00, 0x42, []) := by
  decide
theorem test_set_noncanonical : after wzcp (step (vec 0x0612 0x31 true true)) = some (0xFF, true, true, 0x11) := by decide
theorem test_clear : after wzcp (step (vec 0x0700 0x31 false true)) = some (0x00, false, true, 0x11) := by decide

-- section 2.3
theorem test_add : after wzcp (step (vec3 0x0803 0xCC 0xAA true false)) = some (0x76, false, true, 0x11) := by decide
theorem test_add_zero_and_carry :
    after wzcp (step (vec3 0x0803 0x80 0x80 false false)) = some (0x00, true, true, 0x11) := by decide
theorem test_sub_borrow : after wzcp (step (vec3 0x0903 0x30 0x90 true false)) = some (0xA0, false, true, 0x11) := by decide
theorem test_and : after wzcp (step (vec3 0x0A03 0xCC 0xAA true true)) = some (0x88, false, false, 0x11) := by decide
theorem test_or : after wzcp (step (vec3 0x0B03 0xCC 0xAA true true)) = some (0xEE, false, false, 0x11) := by decide
theorem test_xor : after wzcp (step (vec3 0x0C03 0xFF 0xFF false true)) = some (0x00, true, false, 0x11) := by decide

-- section 2.4
theorem test_not : after wzcp (step (vec 0x0D00 0x0F true true)) = some (0xF0, false, false, 0x11) := by decide
theorem test_inc : after wzcp (step (vec 0x0E00 0xFF false false)) = some (0x00, true, true, 0x11) := by decide
theorem test_dec : after wzcp (step (vec 0x0F00 0x00 true false)) = some (0xFF, false, true, 0x11) := by decide

-- section 2.5
theorem test_sub_not_borrow :
    after wzcp (step (vecUnder { Config.default with carrySub := .notBorrow } (vec3 0x0903 0x30 0x90 true true)))
      = some (0xA0, false, false, 0x11) := by decide
theorem test_dec_not_borrow :
    after wzcp (step (vecUnder { Config.default with carrySub := .notBorrow } (vec 0x0F00 0x01 false false)))
      = some (0x00, true, true, 0x11) := by decide
theorem test_and_carry_unchanged :
    after wzcp (step (vecUnder { Config.default with carryLogic := .unchanged } (vec3 0x0A03 0xCC 0xAA true true)))
      = some (0x88, false, true, 0x11) := by decide
theorem test_xor_carry_any :
    after (fun t => (t.w, t.zeroF, t.pc, t.draws))
      (step (vecUnder { Config.default with carryLogic := .any } (vec3 0x0C03 0xCC 0xAA true true)))
      = some (0x66, false, 0x11, 1) := by decide
theorem test_inc_carry_unchanged :
    after wzcp (step (vecUnder { Config.default with carryIncDec := .unchanged } (vec 0x0E00 0xFF false false)))
      = some (0x00, true, false, 0x11) := by decide

-- section 2.6
theorem test_jmp : after wzcp (step (vec 0x1040 0x31 true true)) = some (0x31, true, true, 0x40) := by decide
theorem test_jz_taken : after (·.pc) (step (vec 0x1105 0x31 true false)) = some 0x05 := by decide
theorem test_jz_not_taken : after (·.pc) (step (vec 0x1105 0x00 false true)) = some 0x11 := by decide
theorem test_jc_taken : after (·.pc) (step (vec 0x120A 0x31 false true)) = some 0x0A := by decide
theorem test_jc_literal :
    after (·.pc) (step (vecUnder { Config.default with literalPcSignals := true } (vec 0x120A 0x31 true false)))
      = some 0x10 := by decide
theorem test_hlt : after (fun t => (t.pc, t.halted, t.w)) (step (vec 0x13FF 0x31 true true)) = some (0x10, true, 0x31) := by
  decide

-- section 2.7
theorem test_in :
    after (fun t => (wzcp t, t.input)) (step { vec 0x1400 0x31 false true with input := [0x00, 0x41] })
      = some ((0x00, false, true, 0x11), [0x41]) := by decide
/-- With no byte known the value is free; the rest is as the rule says. -/
theorem test_in_free :
    after (fun t => (t.zeroF, t.carryF, t.pc, t.input)) (step (vec 0x1400 0x31 false true)) = some (false, true, 0x11, []) := by
  decide
theorem test_out :
    after (fun t => (t.out, wzcp t)) (step { vec 0x1507 0x55 true true with out := [(0x07, 0x55)] })
      = some ([(0x07, 0x55), (0x07, 0x55)], (0x55, true, true, 0x11)) := by decide

-- section 2.8
theorem test_illegal : faultOf (step (vec 0x1600 0x31 true true)) = some (.illegalOpcode 0x1600) := by decide
theorem test_illegal_as_nop :
    after wzcp (step (vecUnder { Config.default with illegalPolicy := .nop } (vec 0x1FFF 0x31 true true)))
      = some (0x31, true, true, 0x11) := by decide
theorem test_strict_operands :
    faultOf (step (vecUnder { Config.default with strictOperands := true } (vec 0x0D01 0x31 true true)))
      = some (.nonCanonicalOperand 0x0D01) := by decide
theorem test_reset :
    State.reset.pc = 0x00 ∧ State.reset.halted = false ∧ State.reset.out = [] ∧ Memory.wf State.reset = true := by decide
/-- The host's placing of an instruction, from reset: ADD Wreg R0 runs as the first instruction. -/
theorem test_withFetchWord :
    after (fun t => (t.zeroF, t.pc)) (step (State.reset.withFetchWord 16 0x0800)) = some (true, 0x01) := by decide
/-- From reset with nothing placed, the step stops at the word an unloaded cell reads as. -/
theorem test_nothing_loaded : faultOf (step State.reset) = some (.illegalOpcode 0x1FFF) := by decide

/-! ## Witnesses: for each statement with hypotheses, a concrete case that meets them -/

theorem witness_EncodeOfDecodeIsTheWord :
    decode false 0x080B#13 = .ok (.add 1 .r3) ∧ decode true 0x0803#13 = .ok (.add 0 .r3) := by decide
theorem witness_StrictRefusesExactlyNonCanonicalWords :
    decode false 0x0612#13 = .ok (.set 0x12) ∧ decode false 0x15FF#13 = .ok (.out 0xFF) := by decide
theorem witness_UnusedOperandBitsHaveNoEffect :
    decode false 0x04FD#13 = .ok (.mov 0x1F .sp) ∧ decode false 0x0000#13 = .ok (.nop 0) := by decide
theorem witness_WordIsOpcodeThenOperand :
    (Instr.nop 0).wellFormed = true ∧ (Instr.loadi 0xFF).wellFormed = true ∧ (Instr.jc 0).wellFormed = true ∧
    (Instr.xor 0 .ma).wellFormed = true := by decide
theorem witness_FieldsOfTheInstructionWord :
    (4 < 5 ∧ 7 < 8) ∧ opcodeField 0x1FFF#13 = opcodeField (0x1F00#13 ||| 0xFF#13) ∧
    operandField 0x1FFF#13 = operandField (0x1F00#13 ||| 0xFF#13) ∧ decode true 0x1507#13 = .ok (.out 7) := by decide
/-- A run of one step, NOP, from a launch state whose cells hold 0x5C: it stores nothing. -/
theorem witness_LoadaLoadsTheCell :
    let l : Launch := { Launch.named with initRam := fun _ => 0x5C#8, romImage := fun _ => 0x0000#13 }
    RunsTo 1 (launch l) { launch l with pc := 1 } ∧
    ∀ (j : Nat) (u : State), j < 1 → RunsTo j (launch l) u → u.fetchInstr ≠ .ok (.store 0x80) := by
  intro l
  have hf : (launch l).fetchInstr = .ok (.nop 0) := by
    rw [State.fetchInstr, State.fetchWord, show (launch l).romRead _ = 0x0000#13 from cellRead_romOfImage (fun _ => 0x0000#13) _]
    rfl
  refine ⟨?_, fun j u hj hr => ?_⟩
  · have hs : Host.Core.step core (launch l) = .next { launch l with pc := 1 } := by
      show step (launch l) = _
      simp only [step, hf]; rfl
    simp only [RunsTo, Host.Core.run, hs]
  · obtain rfl : j = 0 := by omega
    cases hr
    rw [hf]; intro h; cases h
theorem witness_StepRunsTheDecodedInstruction :
    (vec 0x0803 1 true true).halted = false ∧
    decode (vec 0x0803 1 true true).config.strictOperands (vec 0x0803 1 true true).fetchWord = .ok (.add 0 .r3) := by decide
theorem witness_HaltedMachinePerformsNoStep : (vec 0x0000 1 true true).halt.halted = true := by decide
theorem witness_IllegalWordStopsOrActsAsNop :
    ((vec 0x1600 1 true true).halted = false ∧ 0x1600 ≤ (vec 0x1600 1 true true).fetchWord.toNat) ∧
    (let s := vecUnder { Config.default with illegalPolicy := .nop } (vec 0x1FFF 1 true true)
     s.halted = false ∧ 0x1600 ≤ s.fetchWord.toNat ∧ s.config.illegalPolicy = .nop) := by decide
theorem witness_NonCanonicalWordStopsUnderStrictOperands :
    let s := vecUnder { Config.default with strictOperands := true } (vec 0x0D01 1 true true)
    s.halted = false ∧ s.config.strictOperands = true ∧ s.fetchWord = encode (.not 1) ∧
    (Instr.not 1).wellFormed = false := by decide
theorem witness_PlacedInstructionIsRunNext :
    (State.reset.config.strictOperands = true → (Instr.add 1 .r3).wellFormed = true) ∧
    ((vecUnder { Config.default with strictOperands := true } State.reset).config.strictOperands = true →
      (Instr.add 0 .r3).wellFormed = true) := by decide
theorem witness_StepAnswersANextStateExactlyWhen :
    (vec 0x15FF 1 true true).halted = false ∧ (vec 0x15FF 1 true true).fetchWord.toNat < 0x1600 ∧
    (vec 0x15FF 1 true true).config.strictOperands = false := by decide
theorem witness_NopChangesNothingButPc : ({ State.reset with pc := 0xFF } : State).pc = 0xFF := by decide
theorem witness_MovwWritesTheRegister :
    (∀ (v : BitVec 5) (q : Reg), Instr.loadi 7 ≠ .movw v q) ∧ Reg.sp ≠ Reg.r0 ∧
    (after (·.w) (exec (.loadi 7) State.reset)).isSome = true := by
  refine ⟨?_, ?_, ?_⟩ <;> first | decide | (intro v q h; cases h)
theorem witness_StoreWritesTheCell : (0xFF#8 : Byte) ≠ dataAddress 0xFE ∧ (0x00#8 : Byte) ≠ dataAddress 0xFF := by decide
theorem witness_JzTestsZeroF : (vec 0x1105 0 true false).zeroF = true ∧ (vec 0x1105 0 false true).zeroF = false := by decide
theorem witness_JcTestsCarryF : (vec 0x1205 0 false true).carryF = true ∧ (vec 0x1205 0 true false).carryF = false := by
  decide
theorem witness_InReadsTheInputByte :
    State.reset.input = [] ∧ ({ State.reset with input := [0xFF] } : State).input = 0xFF :: [] := by decide
/-- For each clause an instruction that meets its premise, and one step that answers. -/
theorem witness_EachComponentHasItsWriters :
    (accessOf (.jmp 0)).writesW = false ∧ (accessOf (.add 0 .r0)).writesFile = false ∧
    (accessOf (.clear 0)).writesFlags = false ∧
    ((∀ a : Byte, Instr.clear 0 ≠ .store a) ∧ (∀ u : Byte, Instr.clear 0 ≠ .hlt u) ∧
      (∀ r : Byte, Instr.clear 0 ≠ .out r) ∧ ∀ u : Byte, Instr.clear 0 ≠ .inp u) ∧
    exec (.clear 0) State.reset = .next { State.reset with pc := 1 } := by
  refine ⟨rfl, rfl, rfl, ⟨?_, ?_, ?_, ?_⟩, rfl⟩ <;> (intro u h; cases h)
theorem witness_WIsReadOnlyWhereTheTableSays :
    (accessOf (.loadi 7)).readsW = false ∧ exec (.jmp 5) State.reset = .next { State.reset with pc := 5 } ∧
    (accessOf (.jmp 5)).readsW = false := ⟨rfl, rfl, rfl⟩
theorem witness_FileIsReadOnlyWhereTheTableSays :
    (accessOf (.movw 0 .r0)).readsFile = false ∧ (accessOf (.hlt 0)).readsFile = false ∧
    (accessOf (.hlt 0)).writesFile = false ∧ exec (.hlt 0) State.reset = .next State.reset.halt ∧
    exec (.movw 0 .r0) { State.reset with w := 9 } = .next (({ State.reset with w := 9 } : State).setReg .r0 9).advance ∧
    Reg.ma ≠ Reg.r0 := ⟨rfl, rfl, rfl, rfl, rfl, by decide⟩
theorem witness_FlagsDecideOnlyTheirJumps :
    (accessOf (.jc 0)).readsZeroF = false ∧ (accessOf (.jz 0)).readsCarryF = false ∧
    exec (.jc 5) State.reset = .next { State.reset with pc := 1 } ∧
    exec (.jz 5) State.reset = .next { State.reset with pc := 1 } ∧
    (accessOf (.xor 0 .r1)).readsCarryF = false ∧ keepsCarry Config.default (.xor 0 .r1) = false ∧
    keepsCarry { Config.default with carryLogic := .unchanged } (.xor 0 .r1) = true ∧
    exec (.xor 0 .r1) State.reset = .next (State.reset.alu .xor 0) := ⟨rfl, rfl, rfl, rfl, rfl, rfl, rfl, rfl⟩
theorem witness_RamIsSeenOnlyByLoada :
    (∀ a : Byte, Instr.store 3 ≠ .loada a) ∧ (∀ a : Byte, Instr.store 3 = .store a → (4 : Byte) ≠ dataAddress a) ∧
    exec (.store 3) { State.reset with w := 9 } = .next { State.reset with w := 9, ram := [(3, 9)], pc := 1 } := by
  refine ⟨?_, ?_, rfl⟩
  · intro a h; cases h
  · intro a h; cases h; decide
/-- A program of STORE, OUT and LOADA at addresses 0x10, 0x11 and 0x12: two steps, the second stores nothing. -/
theorem witness_LoadaReadsTheMostRecentStore :
    (∀ i ∈ [Instr.out 1, .store 0x21, .hlt 0], i ≠ .store 0x20) ∧
    (let s := { vec 0x0320 7 true true with rom := [(0x10, 0x0320#13), (0x11, 0x1501#13), (0x12, 0x0220#13)] }
     let u := { s with ram := [(0x20, 7)], pc := 0x11 }
     let v := { u with out := [(1, 7)], pc := 0x12 }
     s.fetchInstr = .ok (.store 0x20) ∧ RunsTo 2 s v ∧
     (∀ (j : Nat) (w : State), 0 < j → j ≤ 1 → RunsTo j s w → w.fetchInstr ≠ .ok (.store 0x20)) ∧
     v.halted = false ∧ v.fetchInstr = .ok (.loada 0x20)) := by
  refine ⟨by decide, rfl, rfl, ?_, rfl, rfl⟩
  intro j w h0 h1 hr
  obtain rfl : j = 1 := by omega
  cases hr
  decide
theorem witness_OnlyHltEndsARun :
    after (·.halted) (step (vec 0x1300 1 true true)) = some true ∧
    after (·.halted) (step (vec 0x0000 1 true true)) = some false := by decide
theorem witness_SelfJumpsRunForEver :
    let lit : Config := { Config.default with literalPcSignals := true }
    ((vec 0x1010 1 true true).halted = false ∧ (vec 0x1010 1 true true).fetchWord = encode (.jmp (vec 0x1010 1 true true).pc)) ∧
    (let s := vecUnder lit (vec 0x1105 1 false true)
     s.halted = false ∧ s.config.literalPcSignals = true ∧ s.zeroF = false ∧ s.fetchWord = encode (.jz 5)) ∧
    (let s := vecUnder lit (vec 0x1205 1 true false)
     s.halted = false ∧ s.config.literalPcSignals = true ∧ s.carryF = false ∧ s.fetchWord = encode (.jc 5)) := by decide
theorem witness_RunsKeepProgramAndHistory :
    RunsTo 1 (vec 0x1501 7 true true) { vec 0x1501 7 true true with out := [(1, 7)], pc := 0x11 } := rfl
/-- An image of one assigned word everywhere: 256 words of NOP. -/
theorem witness_AssignedProgramsRunSafely :
    let s : State := launch { Launch.named with romImage := fun _ => 0x0000#13 }
    ∀ a : Byte, (s.romRead a).toNat < 0x1600 ∧
      (s.config.strictOperands = true → ∀ i : Instr, encode i = s.romRead a → i.wellFormed = true) := by
  intro s a
  have h : s.config.strictOperands = false := rfl
  have hz : s.romRead a = 0x0000#13 := cellRead_romOfImage (fun _ => 0x0000#13) a
  refine ⟨?_, fun hs => ?_⟩
  · rw [hz]; decide
  · rw [h] at hs; cases hs
theorem witness_StepKeepsMemoriesCanonical :
    Memory.wf (vec 0x0320 7 true true) = true ∧ after (·.ram) (step (vec 0x0320 7 true true)) = some [(0x20, 7)] := by decide
theorem witness_ResetAndLaunchMemoriesAreCanonical :
    Memory.wf ((vec 0x0320 7 true true).ramWrite 255 1) = true := by decide
theorem witness_DatapathAgreesWithTheInstructionRules :
    ((∀ (u : BitVec 5) (rn : Reg), Instr.inp 0 ≠ .mov u rn) ∧ (∀ u : Byte, Instr.inp 0 ≠ .set u) ∧
      ∀ u : Byte, Instr.inp 0 ≠ .clear u) ∧
    (vecUnder { Config.default with literalPcSignals := true } State.reset).config.literalPcSignals = true := by
  refine ⟨⟨?_, ?_, ?_⟩, rfl⟩
  · intro u rn h; cases h
  · intro u h; cases h
  · intro u h; cases h

end Sys2Proof.Tests
end

