-- ==== Sys2Proof/Proofs/Encoding.lean ====
section
/-!
PROOFS. The statements of 30_encoding.md: how an instruction's word is put together (R105), and the control-signal
tables (R103).
-/
namespace Sys2Proof

/-! ## The word of an instruction -/

/-- The two spellings of R105 for one word: `opcode ++ operand` is `(opcode << 8) | operand`. -/
theorem append_eq_shiftLeft_or (op : Opcode) (b : Byte) :
    (op ++ b : Iw) = ((op.setWidth 13) <<< 8) ||| (b.setWidth 13) := by
  rw [BitVec.append_def, BitVec.shiftLeftZeroExtend_eq, BitVec.setWidth'_eq]

/-- With its unused bits 0, the operand byte of format R is the zero-padded register code. -/
theorem operandR_of_unused_eq_zero {u : BitVec 5} (hu : (u == 0) = true) (rn : Reg) :
    operandR u rn = 0b00000#5 ++ rn.code := by
  obtain rfl : u = 0 := eq_of_beq hu
  rfl

/-- Settles O6: the word clause is `append_eq_shiftLeft_or`; being canonical clears the whole operand byte in format N and
the bits above the register code in format R, and says nothing in formats I and A, where the byte is the operand itself. -/
theorem wordIsOpcodeThenOperand : Obligations.WordIsOpcodeThenOperand := by
  refine ⟨fun i => ⟨rfl, append_eq_shiftLeft_or i.opcode i.operand⟩, fun i hi => ?_,
    rfl, rfl, rfl, rfl, rfl, fun iw => Nat.le_of_lt_succ iw.isLt, rfl⟩
  cases i with
  | nop u | set u | clear u | not u | inc u | dec u | hlt u | inp u => exact eq_of_beq hi
  | loadi imm | out imm => rfl
  | loada addr | store addr | jmp addr | jz addr | jc addr => rfl
  | mov u rn | movw u rn | add u rn | sub u rn | and u rn | or u rn | xor u rn =>
    exact operandR_of_unused_eq_zero hi rn

/-! ## The control-signal tables -/

/-- Settles O53: each row of the four tables is the row `signals` gives, whatever the operand and the flags; the ALU_OP
codes of T-103b go operation by operation. -/
theorem controlSignalTables : Obligations.ControlSignalTables := by
  intro n u rn z c
  refine ⟨rfl, rfl, rfl, rfl, rfl, rfl, rfl, rfl, -- the data commands (T-103a)
    fun op => ?_,
    rfl, rfl, rfl, rfl, rfl, rfl, rfl, rfl, -- the ALU commands (T-103b)
    rfl, rfl, rfl, rfl, -- the jump commands (T-103c)
    rfl, rfl⟩ -- the I/O instructions (T-103d)
  cases op <;> rfl

end Sys2Proof
end

