-- ==== Sys2Proof/Proofs/DataCommands.lean ====
section
/-!
PROOFS. The statements of 40_data.md: LOADI (R121), LOADA (R122), STORE (R123) and MOVW (R125).
-/
namespace Sys2Proof.Machine

/-! ## What an instruction, a step and a run leave as it was -/

/-- An instruction that writes W and falls through changes nothing else. -/
theorem setW_advance_frame (s : State) (v : Byte) :
    KeepsFile s (s.setW v).advance ∧ KeepsFlags s (s.setW v).advance ∧ KeepsRam s (s.setW v).advance ∧
      KeepsProgram s (s.setW v).advance ∧ KeepsPorts s (s.setW v).advance ∧ KeepsHalted s (s.setW v).advance :=
  ⟨fun _ => rfl, ⟨rfl, rfl⟩, fun _ => rfl, ⟨fun _ => rfl, rfl⟩, ⟨rfl, rfl, rfl⟩, rfl⟩

/-- MOVW alone writes the register file (T-25). -/
theorem exec_keepsFile (i : Instr) (s t : State) (h : exec i s = .next t)
    (hi : ∀ (u : BitVec 5) (rn : Reg), i ≠ .movw u rn) : KeepsFile s t := by
  intro r
  cases i with
  | movw u rn => exact absurd rfl (hi u rn)
  | jz a => rw [exec_jz] at h; cases h; rfl
  | jc a => rw [exec_jc] at h; cases h; rfl
  | _ => cases h; rfl

/-- A step leaves every RAM cell as it was, but for the one a STORE names. -/
theorem step_ramRead {s t : State} {a : Byte} (h : step s = .next t) (ha : s.fetchInstr ≠ .ok (.store a)) :
    t.ramRead a = s.ramRead a := by
  obtain ⟨-, i, hi, hx⟩ := (step_next_iff s t).mp h
  exact exec_ramRead i s t a hx fun e => ha (e ▸ hi)

/-- A run of `k + 1` steps of any machine is one step and a run of `k`. -/
theorem run_succ_eq_next_iff (M : Host.Core) (k : Nat) (s t : M.State) :
    M.run (k + 1) s = .next t ↔ ∃ u : M.State, M.step s = .next u ∧ M.run k u = .next t := by
  rw [Host.Core.run]
  cases M.step s with
  | next u => simp
  | fault f => simp
  | refused r => simp

theorem runsTo_succ_iff {k : Nat} {s t : State} :
    RunsTo (k + 1) s t ↔ ∃ u : State, step s = .next u ∧ RunsTo k u t :=
  run_succ_eq_next_iff core k s t

/-- A run leaves a RAM cell as it was when none of its steps is a STORE to it. -/
theorem runsTo_ramRead {k : Nat} {s t : State} {a : Byte} (h : RunsTo k s t)
    (ha : ∀ (j : Nat) (u : State), j < k → RunsTo j s u → u.fetchInstr ≠ .ok (.store a)) :
    t.ramRead a = s.ramRead a := by
  induction k generalizing s with
  | zero => cases h; rfl
  | succ k ih =>
    obtain ⟨u, hs, hr⟩ := runsTo_succ_iff.mp h
    calc t.ramRead a = u.ramRead a :=
          ih hr fun j v hj hv => ha (j + 1) v (Nat.succ_lt_succ hj) (runsTo_succ_iff.mpr ⟨u, hs, hv⟩)
      _ = s.ramRead a := step_ramRead hs (ha 0 s k.succ_pos rfl)

/-- Every RAM cell of a launch state holds its INIT_RAM value (T-43). -/
theorem launch_ramRead (l : Launch) (a : Byte) : (launch l).ramRead a = l.initRam a :=
  cellRead_ramOfImage l.initRam a

/-! ## The four instructions -/

/-- Settles O19: the effect is `exec_loada` with the frame of a write of W, and the last clause is `runsTo_ramRead` from the
launch state, whose cells `launch_ramRead` gives. -/
theorem loadaLoadsTheCell : Obligations.LoadaLoadsTheCell := fun addr s =>
  ⟨append_eq_shiftLeft_or 0x02#5 addr, rfl, rfl,
    ⟨_, exec_loada addr s, rfl, rfl, setW_advance_frame s _⟩,
    fun l _ _ hr hns => (runsTo_ramRead hr hns).trans (launch_ramRead l addr)⟩

/-- Settles O18: the effect is `exec_loadi` with the frame of a write of W. -/
theorem loadiLoadsTheImmediate : Obligations.LoadiLoadsTheImmediate := fun imm s =>
  ⟨append_eq_shiftLeft_or 0x01#5 imm, rfl, rfl,
    _, exec_loadi imm s, rfl, rfl, setW_advance_frame s imm⟩

/-- Settles O20: which cells change is the read after a write (`State.ramWrite_ramRead`), which also gives the LOADA. -/
theorem storeWritesTheCell : Obligations.StoreWritesTheCell := by
  intro addr s
  have hread (b : Byte) : (s.ramWrite addr s.w).advance.ramRead b = if b = addr then s.w else s.ramRead b :=
    State.ramWrite_ramRead s addr s.w b
  have hsame : (s.ramWrite addr s.w).advance.ramRead addr = s.w := by rw [hread, if_pos rfl]
  refine ⟨append_eq_shiftLeft_or 0x03#5 addr, rfl, rfl, ⟨_, exec_store addr s, hsame, fun b hb => ?_, rfl,
    rfl, fun _ => rfl, ⟨rfl, rfl⟩, ⟨fun _ => rfl, rfl⟩, ⟨rfl, rfl, rfl⟩, rfl⟩, ⟨_, rfl, hsame⟩⟩
  rw [hread]
  exact if_neg hb

/-- Settles O22: which registers change is the read after a write (`State.setReg_reg`), and that no other instruction writes
the file is `exec_keepsFile`. -/
theorem movwWritesTheRegister : Obligations.MovwWritesTheRegister := by
  intro u rn s
  have hread (q : Reg) : (s.setReg rn s.w).advance.reg q = if q = rn then s.w else s.reg q :=
    State.setReg_reg s rn q s.w
  have hword : encode (.movw 0 rn) = 0x0500#13 ||| rn.code.setWidth 13 := by cases rn <;> rfl
  refine ⟨hword, rfl, rfl, ⟨_, exec_movw u rn s, ?_, fun q hq => ?_, rfl,
    rfl, ⟨rfl, rfl⟩, fun _ => rfl, ⟨fun _ => rfl, rfl⟩, ⟨rfl, rfl, rfl⟩, rfl⟩, fun i t hi h => exec_keepsFile i s t h hi⟩
  · rw [hread, if_pos rfl]
  · rw [hread, if_neg hq]

end Sys2Proof.Machine
end

