-- ==== Sys2Proof/Proofs/Jumps.lean ====
section
/-!
PROOFS. The statements of 42_jump.md: JMP (R161).
-/
namespace Sys2Proof.Machine

/-- Setting `pc` changes nothing else. -/
theorem setPc_frame (s : State) (a : Byte) :
    KeepsW s (s.setPc a) ∧ KeepsFile s (s.setPc a) ∧ KeepsFlags s (s.setPc a) ∧ KeepsRam s (s.setPc a) ∧
      KeepsProgram s (s.setPc a) ∧ KeepsPorts s (s.setPc a) ∧ KeepsHalted s (s.setPc a) :=
  ⟨rfl, fun _ => rfl, ⟨rfl, rfl⟩, fun _ => rfl, ⟨fun _ => rfl, rfl⟩, ⟨rfl, rfl, rfl⟩, rfl⟩

/-- Setting `pc` to the value it has changes nothing at all. -/
@[simp] theorem State.setPc_pc_self (s : State) : s.setPc s.pc = s := rfl

/-- Settles O34: the effect is `exec_jmp` with the frame of a write of `pc`. A jump to its own address writes back the `pc`
it found, and a jump to `pc + 1` writes what NOP falls through to. -/
theorem jmpGoesToItsAddress : Obligations.JmpGoesToItsAddress := by
  intro addr s
  have hself : exec (.jmp s.pc) s = .next s := by rw [exec_jmp, State.setPc_pc_self]
  have hnop : exec (.jmp (s.pc + 1)) s = exec (.nop 0) s := by rw [exec_jmp, exec_nop, State.advance, State.pcNext]
  exact ⟨append_eq_shiftLeft_or 0x10#5 addr, rfl, rfl,
    ⟨_, exec_jmp addr s, (jumpTarget_eq addr).symm, setPc_frame s addr⟩, hself, hnop⟩

end Sys2Proof.Machine
end

