-- ==== Sys2Proof/Proofs/Decoding.lean ====
section
/-!
PROOFS. Decoding against encoding (30_encoding.md sections 1 to 3 and 7): the round trips, the unassigned opcodes, and the
operand bits an instruction does not use.
-/
namespace Sys2Proof

/-! ## A word and the instruction it encodes -/

theorem opcodeField_encode (i : Instr) : opcodeField (encode i) = i.opcode := opcodeField_append _ _

theorem operandField_encode (i : Instr) : operandField (encode i) = i.operand := operandField_append _ _

/-- The opcode and the operand byte of an instruction give the instruction back; in format R the byte's two fields do. -/
theorem instrOf_opcode_operand (i : Instr) : instrOf i.opcode i.operand = some i := by
  cases i with
  | mov u rn | movw u rn | add u rn | sub u rn | and u rn | or u rn | xor u rn =>
    simp only [Instr.opcode, Instr.operand, instrOf, unusedField_operandR, regOfOperandR]
  | _ => rfl

/-- The fields of a word give an instruction exactly if the word is its encoding. -/
theorem instrOf_fields_iff (iw : Iw) (i : Instr) :
    instrOf (opcodeField iw) (operandField iw) = some i ↔ encode i = iw := by
  constructor
  · intro h
    obtain ⟨hop, hb⟩ := instrOf_inv _ _ _ h
    rw [encode, hop, hb, fields_append]
  · rintro rfl
    rw [opcodeField_encode, operandField_encode, instrOf_opcode_operand]

/-- A word decodes to an instruction exactly if it is the instruction's encoding, a canonical one under STRICT_OPERANDS. -/
theorem decode_eq_ok_iff (strict : Bool) (iw : Iw) (i : Instr) :
    decode strict iw = .ok i ↔ encode i = iw ∧ (strict = true → i.wellFormed = true) := by
  rw [Machine.decode_ok_iff, instrOf_fields_iff]

theorem encode_injective : Function.Injective encode := fun i j h => by
  have hi := (instrOf_fields_iff (encode j) i).mpr h
  have hj := (instrOf_fields_iff (encode j) j).mpr rfl
  exact Option.some.inj (hi.symm.trans hj)

theorem decode_encode (strict : Bool) (i : Instr) :
    decode strict (encode i) =
      if strict && !i.wellFormed then .error (.nonCanonicalOperand (encode i)) else .ok i := by
  rw [decode, (instrOf_fields_iff (encode i) i).mpr rfl]

theorem decode_encode_of_wellFormed {strict : Bool} {i : Instr} (h : strict = true → i.wellFormed = true) :
    decode strict (encode i) = .ok i :=
  (decode_eq_ok_iff strict (encode i) i).mpr ⟨rfl, h⟩

/-- Settles O1: without STRICT_OPERANDS every instruction comes back, and with it the check is `Instr.wellFormed`. -/
theorem decodeOfEncodeIsTheInstruction : Obligations.DecodeOfEncodeIsTheInstruction := by
  refine ⟨fun i => decode_encode_of_wellFormed (fun h => nomatch h), fun i => ?_⟩
  rw [decode_encode]
  cases i.wellFormed <;> rfl

/-- Settles O2: `decode_eq_ok_iff` read from left to right. -/
theorem encodeOfDecodeIsTheWord : Obligations.EncodeOfDecodeIsTheWord := fun strict iw i h =>
  ((decode_eq_ok_iff strict iw i).mp h).1

/-- Settles O7: the fields bit by bit, the word they make up (`fields_append`), and the fields of an encoding. -/
theorem fieldsOfTheInstructionWord : Obligations.FieldsOfTheInstructionWord := by
  refine ⟨fun iw k hk => ?_, fun iw k hk => ?_, fun iw jw hop hb => ?_, fun strict iw i h => ?_⟩
  · simp [opcodeField, hk]
  · simp [operandField, hk]
  · rw [← fields_append iw, hop, hb, fields_append]
  · obtain ⟨rfl, -⟩ := (decode_eq_ok_iff strict iw i).mp h
    exact ⟨(opcodeField_encode i).symm, (operandField_encode i).symm⟩

/-- Settles O8: fixed words, each decoded by evaluation. -/
theorem wordsOfTheSpecDecode : Obligations.WordsOfTheSpecDecode := by
  unfold Obligations.WordsOfTheSpecDecode
  decide

/-! ## The unassigned opcodes -/

/-- The opcode of an instruction is one of 0x00 to 0x15 (R95). -/
theorem Instr.opcode_lt (i : Instr) : i.opcode.toNat < 0x16 := by cases i <;> exact Nat.le_of_ble_eq_true rfl

/-- Exactly the opcodes 0x16 to 0x1F are unassigned (R96): no instruction has one, and each lower one has its own arm. -/
theorem instrOf_eq_none_iff (op : Opcode) (b : Byte) : instrOf op b = none ↔ 0x16 ≤ op.toNat := by
  constructor
  · intro h
    unfold instrOf at h
    split at h
    case h_23 => simp only [imp_false] at *; bv_omega
    all_goals cases h
  · intro hle
    cases h : instrOf op b with
    | none => rfl
    | some i =>
      obtain ⟨rfl, -⟩ := instrOf_inv op b i h
      exact absurd i.opcode_lt (Nat.not_lt.mpr hle)

theorem opcodeField_toNat (iw : Iw) : (opcodeField iw).toNat = iw.toNat / 256 := by
  have := iw.isLt
  rw [opcodeField, BitVec.extractLsb'_toNat, Nat.shiftRight_eq_div_pow]
  omega

theorem opcodeField_unassigned_iff (iw : Iw) : 0x16 ≤ (opcodeField iw).toNat ↔ 0x1600 ≤ iw.toNat := by
  rw [opcodeField_toNat]
  omega

/-- A word is illegal exactly from 0x1600 on, whatever STRICT_OPERANDS (R96, R182). -/
theorem decode_eq_illegal_iff (strict : Bool) (iw : Iw) :
    decode strict iw = .error (.illegalOpcode iw) ↔ 0x1600 ≤ iw.toNat := by
  rw [← opcodeField_unassigned_iff, ← instrOf_eq_none_iff _ (operandField iw), decode]
  cases instrOf (opcodeField iw) (operandField iw) with
  | none => simp
  | some i => by_cases h : (strict && !i.wellFormed) = true <;> simp [h]

/-- The words below 0x1600 are the encodings. -/
theorem exists_encode_eq_iff (iw : Iw) : (∃ i : Instr, encode i = iw) ↔ iw.toNat < 0x1600 := by
  simp only [← instrOf_fields_iff]
  rw [← Nat.not_le, ← opcodeField_unassigned_iff, ← instrOf_eq_none_iff _ (operandField iw),
    Option.eq_none_iff_forall_ne_some]
  simp

/-- Settles O3: `decode_eq_illegal_iff`, and the words below are encodings, which decode. -/
theorem unassignedOpcodesAreIllegal : Obligations.UnassignedOpcodesAreIllegal := fun iw =>
  ⟨fun strict => decode_eq_illegal_iff strict iw, by simp [decode_eq_ok_iff, ← exists_encode_eq_iff]⟩

/-! ## The operand bits an instruction does not use -/

/-- The bits of the operand byte that a format does not use (R91, R94). -/
def Format.unusedBits : Format → Byte
  | .n => 0xFF#8
  | .r => 0xF8#8
  | .i => 0x00#8
  | .a => 0x00#8

/-- The canonical mask of a format (R107) is the whole opcode and the unused operand bits. -/
theorem Format.canonicalMask_eq (f : Format) : f.canonicalMask = 0x1F#5 ++ f.unusedBits := by cases f <;> rfl

/-- The mask of the bits a format uses is the whole opcode and the used operand bits. -/
theorem Format.usedMask_eq (f : Format) : 0x1F00#13 ||| ~~~f.canonicalMask = 0x1F#5 ++ ~~~f.unusedBits := by
  cases f <;> rfl

/-- Masking a word with the whole opcode and some operand bits masks its operand byte. -/
theorem encode_and_mask (i : Instr) (m : Byte) :
    encode i &&& (0x1F#5 ++ m) = i.opcode ++ (i.operand &&& m) := by
  have hop : i.opcode &&& 0x1F#5 = i.opcode := BitVec.and_allOnes
  rw [encode, BitVec.and_append, hop]

theorem byte_and_0xFF (b : Byte) : b &&& 0xFF#8 = b := BitVec.and_allOnes

theorem operandR_and_unused (u : BitVec 5) (rn : Reg) : operandR u rn &&& 0xF8#8 = u ++ 0#3 := by
  rw [operandR, show 0xF8#8 = BitVec.allOnes 5 ++ 0#3 from rfl, BitVec.and_append, BitVec.and_allOnes, BitVec.and_zero]

theorem operandR_and_used (u : BitVec 5) (rn : Reg) : operandR u rn &&& 0x07#8 = operandR 0 rn := by
  rw [operandR, show 0x07#8 = 0#5 ++ BitVec.allOnes 3 from rfl, BitVec.and_append, BitVec.and_allOnes, BitVec.and_zero]
  rfl

/-- An instruction is well-formed exactly if the operand bits its format does not use are 0. -/
theorem Instr.wellFormed_iff_operand_and (i : Instr) :
    i.wellFormed = true ↔ i.operand &&& i.format.unusedBits = 0x00#8 := by
  cases i with
  | nop u | set u | clear u | not u | inc u | dec u | hlt u | inp u =>
    rw [Instr.operand, Instr.format, Format.unusedBits, byte_and_0xFF]
    exact beq_iff_eq
  | loadi b | loada b | store b | jmp b | jz b | jc b | out b =>
    simp [Instr.wellFormed, Instr.format, Format.unusedBits]
  | mov u rn | movw u rn | add u rn | sub u rn | and u rn | or u rn | xor u rn =>
    rw [Instr.operand, Instr.format, Format.unusedBits, operandR_and_unused,
      show 0x00#8 = 0#5 ++ 0#3 from rfl, BitVec.append_left_inj]
    exact beq_iff_eq

/-- Settles O4: STRICT_OPERANDS refuses the ill-formed instructions, and the canonical mask leaves of a word its opcode and
the unused operand bits, which are 0 exactly in a well-formed one. -/
theorem strictRefusesExactlyNonCanonicalWords : Obligations.StrictRefusesExactlyNonCanonicalWords := by
  intro iw i h
  obtain ⟨rfl, -⟩ := (decode_eq_ok_iff false iw i).mp h
  have hmask : encode i &&& i.format.canonicalMask = i.opcode ++ (0x00#8 : Byte) ↔ i.wellFormed = true := by
    rw [Format.canonicalMask_eq, encode_and_mask, BitVec.append_right_inj, Instr.wellFormed_iff_operand_and]
  rw [ne_eq, hmask, decode_encode]
  cases i.wellFormed <;> simp

/-- The instruction with its unused operand bits 0: what the spec takes it to be (R94). -/
def Instr.canonical : Instr → Instr
  | .nop _ => .nop 0
  | .loadi imm => .loadi imm
  | .loada addr => .loada addr
  | .store addr => .store addr
  | .mov _ rn => .mov 0 rn
  | .movw _ rn => .movw 0 rn
  | .set _ => .set 0
  | .clear _ => .clear 0
  | .add _ rn => .add 0 rn
  | .sub _ rn => .sub 0 rn
  | .and _ rn => .and 0 rn
  | .or _ rn => .or 0 rn
  | .xor _ rn => .xor 0 rn
  | .not _ => .not 0
  | .inc _ => .inc 0
  | .dec _ => .dec 0
  | .jmp addr => .jmp addr
  | .jz addr => .jz addr
  | .jc addr => .jc addr
  | .hlt _ => .hlt 0
  | .inp _ => .inp 0
  | .out row => .out row

theorem Instr.canonical_wellFormed (i : Instr) : i.canonical.wellFormed = true := by cases i <;> rfl

theorem Instr.canonical_opcode (i : Instr) : i.canonical.opcode = i.opcode := by cases i <;> rfl

theorem Instr.canonical_operand (i : Instr) : i.canonical.operand = i.operand &&& ~~~i.format.unusedBits := by
  cases i <;> simp [Instr.canonical, Instr.operand, Instr.format, Format.unusedBits, byte_and_0xFF, operandR_and_used]

/-- No meaning reads the unused operand bits. -/
theorem exec_canonical (i : Instr) (s : Machine.State) : Machine.exec i.canonical s = Machine.exec i s := by
  cases i <;> rfl

/-- Settles O5: the masked word is the encoding of `Instr.canonical`, which has the same meaning. -/
theorem unusedOperandBitsHaveNoEffect : Obligations.UnusedOperandBitsHaveNoEffect := by
  intro iw i h
  obtain ⟨rfl, -⟩ := (decode_eq_ok_iff false iw i).mp h
  have hword : encode i &&& (0x1F00#13 ||| ~~~i.format.canonicalMask) = encode i.canonical := by
    rw [Format.usedMask_eq, encode_and_mask, encode, Instr.canonical_opcode, Instr.canonical_operand]
  refine ⟨i.canonical, ?_, i.canonical_wellFormed, fun s => (exec_canonical i s).symm⟩
  rw [hword]
  exact decode_encode_of_wellFormed fun _ => i.canonical_wellFormed

end Sys2Proof
end

