-- ==== Sys2Proof/Proofs/Effect.lean ====
section
/-!
PROOFS. The effect of an instruction as a function of the state, and its frame: what each instruction may write, and what
its next state may depend on (10_state.md sections 1 to 4, tables T-25 and T-28; 41_alu.md table T-140).
-/
namespace Sys2Proof.Machine

/-! ## The next state as a function -/

/-- The state after an instruction: every instruction completes (R180), so it is a function of the state before. -/
def effect (i : Instr) (s : State) : State :=
  match i with
  | .nop _ => s.advance
  | .loadi imm => (s.setW imm).advance
  | .loada addr => (s.setW (s.ramRead addr)).advance
  | .store addr => (s.ramWrite addr s.w).advance
  | .mov _ rn => (s.setW (s.reg rn)).advance
  | .movw _ rn => (s.setReg rn s.w).advance
  | .set _ => (s.setW 0xFF#8).advance
  | .clear _ => (s.setW 0x00#8).advance
  | .add _ rn => s.alu .add (s.reg rn)
  | .sub _ rn => s.alu .sub (s.reg rn)
  | .and _ rn => s.alu .and (s.reg rn)
  | .or _ rn => s.alu .or (s.reg rn)
  | .xor _ rn => s.alu .xor (s.reg rn)
  | .not _ => s.alu .not 0
  | .inc _ => s.alu .inc 0
  | .dec _ => s.alu .dec 0
  | .jmp addr => s.setPc addr
  | .jz addr => s.setPc (if s.zeroF then addr else s.pcMarked)
  | .jc addr => s.setPc (if s.carryF then addr else s.pcMarked)
  | .hlt _ => s.halt
  | .inp _ => (s.consumeInput.setW s.inputByte).advanceMarked
  | .out row => (s.output row s.w).advanceMarked

/-- What `exec` answers, for every instruction and every state. -/
theorem exec_eq_effect (i : Instr) (s : State) : exec i s = .next (effect i s) := by
  cases i with
  | jz addr => exact exec_jz addr s
  | jc addr => exact exec_jc addr s
  | _ => rfl

theorem exec_eq_next_iff {i : Instr} {s t : State} : exec i s = .next t ↔ effect i s = t := by
  rw [exec_eq_effect, Host.Outcome.next.injEq]

/-- T-28. -/
theorem effect_pc (i : Instr) (s : State) : (effect i s).pc = pcAfter i s := by cases i <;> rfl

/-- Settles O16: the next state is `effect`, whose `pc` is `pcAfter`. -/
theorem everyInstructionCompletesWithItsProgramCounter :
    Obligations.EveryInstructionCompletesWithItsProgramCounter := fun i s =>
  ⟨effect i s, exec_eq_effect i s, effect_pc i s⟩

/-! ## What an instruction writes: each component is as before unless T-25 lists it as written -/

theorem effect_w (i : Instr) (s : State) :
    (effect i s).w = if (accessOf i).writesW then (effect i s).w else s.w := by cases i <;> rfl

theorem effect_x (i : Instr) (s : State) :
    (effect i s).x = if (accessOf i).writesFile then (effect i s).x else s.x := by cases i <;> rfl

theorem effect_zeroF (i : Instr) (s : State) :
    (effect i s).zeroF = if (accessOf i).writesFlags then (effect i s).zeroF else s.zeroF := by cases i <;> rfl

theorem effect_carryF (i : Instr) (s : State) :
    (effect i s).carryF = if (accessOf i).writesFlags then (effect i s).carryF else s.carryF := by cases i <;> rfl

theorem effect_rom (i : Instr) (s : State) : (effect i s).rom = s.rom := by cases i <;> rfl

theorem effect_config (i : Instr) (s : State) : (effect i s).config = s.config := by cases i <;> rfl

theorem effect_ramRead {i : Instr} {b : Byte} (hi : i ≠ .store b) (s : State) :
    (effect i s).ramRead b = s.ramRead b :=
  exec_ramRead i s _ b (exec_eq_effect i s) hi

theorem effect_halted {i : Instr} (hi : ∀ u : Byte, i ≠ .hlt u) (s : State) : (effect i s).halted = s.halted := by
  cases i with
  | hlt u => exact absurd rfl (hi u)
  | _ => rfl

theorem effect_out {i : Instr} (hi : ∀ row : Byte, i ≠ .out row) (s : State) : (effect i s).out = s.out := by
  cases i with
  | out row => exact absurd rfl (hi row)
  | _ => rfl

theorem effect_input {i : Instr} (hi : ∀ u : Byte, i ≠ .inp u) (s : State) : (effect i s).input = s.input := by
  cases i with
  | inp u => exact absurd rfl (hi u)
  | _ => rfl

/-- Settles O40: the frame equations of `effect`, component by component. -/
theorem eachComponentHasItsWriters : Obligations.EachComponentHasItsWriters := by
  intro i s t h
  obtain rfl := exec_eq_next_iff.mp h
  refine ⟨fun hw => ?_, fun hf r => ?_, fun hfl => ⟨?_, ?_⟩, fun hi b => effect_ramRead (hi b) s,
    fun hi => effect_halted hi s, fun hi => effect_out hi s, fun hi => effect_input hi s,
    fun a => ?_, effect_config i s⟩
  · rw [KeepsW, effect_w, hw]; rfl
  · rw [State.reg, effect_x, hf]; rfl
  · rw [effect_zeroF, hfl]; rfl
  · rw [effect_carryF, hfl]; rfl
  · rw [State.romRead, effect_rom]; rfl

/-! ## What an instruction's next state depends on -/

/-- An instruction that does not read W does the same whatever W holds. -/
theorem effect_of_w {i : Instr} (hi : (accessOf i).readsW = false) (s : State) (v : Byte) :
    effect i { s with w := v } = { effect i s with w := if (accessOf i).writesW then (effect i s).w else v } := by
  cases i with
  | store a | out row => cases hi
  | movw u rn | add u rn | sub u rn | and u rn | or u rn | xor u rn => cases hi
  | not u | inc u | dec u => cases hi
  | _ => rfl

/-- Settles O41, by `effect_of_w`. -/
theorem wIsReadOnlyWhereTheTableSays : Obligations.WIsReadOnlyWhereTheTableSays := by
  intro i s t v hi h
  obtain rfl := exec_eq_next_iff.mp h
  exact exec_eq_next_iff.mpr (effect_of_w hi s v)

/-- An instruction that does not read the register file does the same, the file apart, whatever the file holds. -/
theorem effect_of_x {i : Instr} (hi : (accessOf i).readsFile = false) (s : State) (f : RegFile) :
    { effect i { s with x := f } with x := (effect i s).x } = effect i s := by
  cases i with
  | mov u rn | add u rn | sub u rn | and u rn | or u rn | xor u rn => cases hi
  | _ => rfl

/-- Settles O42: `effect_of_x` beside the file; the file itself is the one found (`effect_x`), or for MOVW that one with W
in the register named. -/
theorem fileIsReadOnlyWhereTheTableSays : Obligations.FileIsReadOnlyWhereTheTableSays := by
  intro i s t f hi h
  obtain rfl := exec_eq_next_iff.mp h
  refine ⟨_, exec_eq_effect i _, effect_of_x hi s f, fun hw => ?_, ?_⟩
  · rw [effect_x, hw]; rfl
  · rintro u rn rfl
    have hread (s : State) (q : Reg) : (effect (.movw u rn) s).reg q = if q = rn then s.w else s.reg q :=
      State.setReg_reg s rn q s.w
    refine ⟨by rw [hread, hread, if_pos rfl, if_pos rfl], fun q hq => ?_⟩
    rw [hread, if_neg hq]; rfl

/-- No instruction but JZ depends on zeroF. -/
theorem effect_of_zeroF {i : Instr} (hi : (accessOf i).readsZeroF = false) (s : State) (f : Bool) :
    effect i { s with zeroF := f } =
      { effect i s with zeroF := if (accessOf i).writesFlags then (effect i s).zeroF else f } := by
  cases i with
  | jz a => cases hi
  | _ => rfl

theorem carryOfLogic_of_old (c : Config) (old f : Bool) (n : Nat) :
    carryOfLogic c f n = if c.carryLogic == .unchanged then f else carryOfLogic c old n := by
  cases h : c.carryLogic <;> simp [carryOfLogic, h]

theorem carryOfIncDec_of_old (c : Config) (old f arith : Bool) :
    carryOfIncDec c f arith = if c.carryIncDec == .unchanged then f else carryOfIncDec c old arith := by
  cases h : c.carryIncDec <;> simp [carryOfIncDec, h]

/-- An ALU command on a state with another carryF differs at most in the carryF it leaves. -/
theorem alu_of_carryF {s : State} {op : AluOp} {r : Byte} {f g : Bool}
    (h : aluCarry s.config op s.w r f s.draws = g) :
    ({ s with carryF := f } : State).alu op r = { s.alu op r with carryF := g } := by
  subst h; rfl

/-- No instruction but JC depends on carryF, but for the carryF it keeps (T-140). -/
theorem effect_of_carryF {i : Instr} (hi : (accessOf i).readsCarryF = false) (s : State) (f : Bool) :
    effect i { s with carryF := f } =
      { effect i s with carryF := if keepsCarry s.config i then f else (effect i s).carryF } := by
  cases i with
  | jc a => cases hi
  | and u rn | or u rn | xor u rn | not u => exact alu_of_carryF (carryOfLogic_of_old _ _ _ _)
  | inc u | dec u => exact alu_of_carryF (carryOfIncDec_of_old _ _ _ _)
  | _ => rfl

/-- Settles O43, by `effect_of_zeroF` and `effect_of_carryF`. -/
theorem flagsDecideOnlyTheirJumps : Obligations.FlagsDecideOnlyTheirJumps := by
  intro i s t f h
  obtain rfl := exec_eq_next_iff.mp h
  exact ⟨fun hz => exec_eq_next_iff.mpr (effect_of_zeroF hz s f),
    fun hc => exec_eq_next_iff.mpr (effect_of_carryF hc s f)⟩

/-- No instruction but LOADA depends, the RAM apart, on what the RAM holds. -/
theorem effect_of_ram {i : Instr} (hi : ∀ a : Byte, i ≠ .loada a) (s : State) (m : List Host.Cell) :
    { effect i { s with ram := m } with ram := (effect i s).ram } = effect i s := by
  cases i with
  | loada a => exact absurd rfl (hi a)
  | _ => rfl

/-- The cell a STORE names reads as W afterwards. -/
theorem effect_store_ramRead (a : Byte) (s : State) : (effect (.store a) s).ramRead a = s.w :=
  (State.ramWrite_ramRead s a s.w a).trans (if_pos rfl)

/-- Settles O44: `effect_of_ram` beside the RAM; in it a STORE's cell takes W (`effect_store_ramRead`), and the others are
as found (`effect_ramRead`). -/
theorem ramIsSeenOnlyByLoada : Obligations.RamIsSeenOnlyByLoada := by
  refine ⟨fun _ _ => rfl, fun i s t m hi h => ?_⟩
  obtain rfl := exec_eq_next_iff.mp h
  refine ⟨_, exec_eq_effect i _, effect_of_ram hi s m, ?_, fun b hb => effect_ramRead (fun hs => hb b hs rfl) _⟩
  rintro a rfl
  exact (effect_store_ramRead a _).trans (effect_store_ramRead a s).symm

end Sys2Proof.Machine
end

