-- ==== Sys2Proof/Proofs/Step.lean ====
section
/-!
PROOFS. The step and runs of it (10_state.md sections 3, 5 and 7; 60_exceptions.md sections 1 and 5; 70_reset_and_hazards.md
sections 2 and 3): what a fetched word does, when the step answers a next state, and what every run keeps.
-/
namespace Sys2Proof.Machine

/-! ## What a word does under the parameters -/

theorem instrUnder_encode {c : Config} {i : Instr} (h : c.strictOperands = true → i.wellFormed = true) :
    instrUnder c (encode i) = .ok i :=
  instrUnder_of_decode c _ i (decode_encode_of_wellFormed h)

theorem instrUnder_nonCanonical {c : Config} {i : Instr} (hc : c.strictOperands = true) (hi : i.wellFormed = false) :
    instrUnder c (encode i) = .error (.nonCanonicalOperand (encode i)) := by
  rw [instrUnder, decode_encode, hc, hi]; rfl

theorem instrUnder_illegal_fault {c : Config} {iw : Iw} (hc : c.illegalPolicy = .fault) (h : 0x1600 ≤ iw.toNat) :
    instrUnder c iw = .error (.illegalOpcode iw) := by
  rw [instrUnder, (decode_eq_illegal_iff _ iw).mpr h]; simp only [hc]

theorem instrUnder_illegal_nop {c : Config} {iw : Iw} (hc : c.illegalPolicy = .nop) (h : 0x1600 ≤ iw.toNat) :
    instrUnder c iw = .ok (.nop 0) := by
  rw [instrUnder, (decode_eq_illegal_iff _ iw).mpr h]; simp only [hc]

/-- The words that are instructions under the parameters: unassigned ones under ILLEGAL_OPCODE_POLICY = nop, and assigned
ones, canonical under STRICT_OPERANDS (T-181). -/
theorem exists_instrUnder_eq_ok_iff (c : Config) (iw : Iw) :
    (∃ i : Instr, instrUnder c iw = .ok i) ↔
      (0x1600 ≤ iw.toNat ∧ c.illegalPolicy = .nop) ∨
      (iw.toNat < 0x1600 ∧ (c.strictOperands = true → ∀ i : Instr, encode i = iw → i.wellFormed = true)) := by
  rcases Nat.lt_or_ge iw.toNat 0x1600 with hlt | hge
  · obtain ⟨j, rfl⟩ := (exists_encode_eq_iff iw).mpr hlt
    have hsame : (∀ i : Instr, encode i = encode j → i.wellFormed = true) ↔ j.wellFormed = true :=
      ⟨fun h => h j rfl, fun h i hi => encode_injective hi ▸ h⟩
    rw [hsame]
    constructor
    · rintro ⟨i, hi⟩
      refine .inr ⟨hlt, fun hc => ?_⟩
      cases hj : j.wellFormed with
      | true => rfl
      | false => rw [instrUnder_nonCanonical hc hj] at hi; cases hi
    · rintro (⟨hge, -⟩ | ⟨-, hj⟩)
      · exact absurd hge (Nat.not_le.mpr hlt)
      · exact ⟨j, instrUnder_encode hj⟩
  · cases hc : c.illegalPolicy with
    | fault => simp [instrUnder_illegal_fault hc hge, Nat.not_lt.mpr hge]
    | nop => simp [instrUnder_illegal_nop hc hge, hge]

/-! ## One step -/

theorem step_of_halted {s : State} (h : s.halted = true) : step s = .fault .halted := by
  rw [step, h]

theorem step_of_fetchInstr_ok {s : State} {i : Instr} (hs : s.halted = false) (hi : s.fetchInstr = .ok i) :
    step s = exec i s := by
  simp only [step, hs, hi]

theorem step_of_fetchInstr_error {s : State} {f : Fault} (hs : s.halted = false) (hf : s.fetchInstr = .error f) :
    step s = .fault f := by
  simp only [step, hs, hf]

theorem step_of_fetchWord_encode {s : State} {i : Instr} (hs : s.halted = false)
    (hi : s.config.strictOperands = true → i.wellFormed = true) (hw : s.fetchWord = encode i) : step s = exec i s :=
  step_of_fetchInstr_ok hs (by rw [State.fetchInstr, hw, instrUnder_encode hi])

/-- A step that answers is the effect of the instruction fetched. -/
theorem step_eq_next {s t : State} (h : step s = .next t) :
    s.halted = false ∧ ∃ i : Instr, s.fetchInstr = .ok i ∧ effect i s = t := by
  obtain ⟨hs, i, hi, hx⟩ := (step_next_iff s t).mp h
  exact ⟨hs, i, hi, exec_eq_next_iff.mp hx⟩

/-- Settles O9: what the word decodes to is the instruction fetched, which the step executes. -/
theorem stepRunsTheDecodedInstruction : Obligations.StepRunsTheDecodedInstruction := fun s i hs hd =>
  step_of_fetchInstr_ok hs (instrUnder_of_decode s.config s.fetchWord i hd)

/-- Settles O10: the first step asked for answers `Fault.halted`, and the run stops there. -/
theorem haltedMachinePerformsNoStep : Obligations.HaltedMachinePerformsNoStep := by
  intro s hs
  have hstep : Host.Core.step core s = .fault .halted := step_of_halted hs
  exact ⟨hstep, fun k => by simp only [Host.Core.run, hstep]⟩

/-- Settles O11, one policy after the other. -/
theorem illegalWordStopsOrActsAsNop : Obligations.IllegalWordStopsOrActsAsNop := by
  intro s hs hw
  cases hc : s.config.illegalPolicy with
  | fault => exact step_of_fetchInstr_error hs (instrUnder_illegal_fault hc hw)
  | nop => exact step_of_fetchInstr_ok hs (instrUnder_illegal_nop hc hw)

/-- Settles O12: the word is not canonical, so `instrUnder` answers the fault and the step passes it on. -/
theorem nonCanonicalWordStopsUnderStrictOperands : Obligations.NonCanonicalWordStopsUnderStrictOperands := by
  intro s i hs hc hw hi
  refine step_of_fetchInstr_error hs ?_
  rw [State.fetchInstr, hw, instrUnder_nonCanonical hc hi]

/-- Settles O13: every instruction completes, so the step answers exactly if the machine runs and the word fetched is an
instruction, which `exists_instrUnder_eq_ok_iff` says in terms of the word. -/
theorem stepAnswersANextStateExactlyWhen : Obligations.StepAnswersANextStateExactlyWhen := by
  intro s
  rw [← exists_instrUnder_eq_ok_iff]
  constructor
  · rintro ⟨t, ht⟩
    obtain ⟨hs, i, hi, -⟩ := step_eq_next ht
    exact ⟨hs, i, hi⟩
  · rintro ⟨hs, i, hi⟩
    exact ⟨effect i s, (step_of_fetchInstr_ok hs hi).trans (exec_eq_effect i s)⟩

theorem exec_ne_refused (i : Instr) (s : State) (r : Refusal) : exec i s ≠ .refused r := by
  rw [exec_eq_effect]; exact fun h => nomatch h

/-- Settles O14: no instruction is refused, and beside an instruction the step answers only faults. -/
theorem nothingIsRefused : Obligations.NothingIsRefused := by
  refine ⟨fun s r h => ?_, exec_ne_refused⟩
  cases hs : s.halted with
  | true => rw [step_of_halted hs] at h; cases h
  | false =>
    cases hf : s.fetchInstr with
    | error f => rw [step_of_fetchInstr_error hs hf] at h; cases h
    | ok i => exact exec_ne_refused i s r (step_of_fetchInstr_ok hs hf ▸ h)

/-- Settles O15: the word placed is the word fetched (`State.placeWord_fetchWord`), and a 13-bit word goes through the
host's numbering unchanged. -/
theorem placedInstructionIsRunNext : Obligations.PlacedInstructionIsRunNext := by
  intro s i hi
  refine ⟨step_of_fetchWord_encode rfl hi (s.placeWord_fetchWord (encode i)), ?_⟩
  rw [State.withFetchWord, Nat.mod_eq_of_lt (encode i).isLt, BitVec.ofNat_toNat, BitVec.setWidth_eq]

/-- Settles O47: HLT sets `halted` and nothing else, and any other instruction leaves it as it was, 0 in a state that
steps. -/
theorem onlyHltEndsARun : Obligations.OnlyHltEndsARun := by
  intro s t h
  obtain ⟨hs, i, hi, rfl⟩ := step_eq_next h
  by_cases hhlt : ∃ u : Byte, i = .hlt u
  · obtain ⟨u, rfl⟩ := hhlt
    exact ⟨⟨fun _ => ⟨u, hi⟩, fun _ => rfl⟩, fun _ => rfl⟩
  · have hrun : ¬ Final (effect i s) := by
      rw [Final, effect_halted (fun u hu => hhlt ⟨u, hu⟩), hs]; exact Bool.false_ne_true
    refine ⟨⟨fun hF => absurd hF hrun, ?_⟩, fun hF => absurd hF hrun⟩
    rintro ⟨u, hu⟩
    rw [hi] at hu
    exact absurd ⟨u, Except.ok.inj hu⟩ hhlt

/-! ## Runs -/

/-- A state that steps to itself runs for ever. -/
theorem runsTo_self {s : State} (h : step s = .next s) (k : Nat) : RunsTo k s s := by
  induction k with
  | zero => rfl
  | succ k ih => exact runsTo_succ_iff.mpr ⟨s, h, ih⟩

/-- Settles O48: each of the three instructions sets `pc` to the value it has. -/
theorem selfJumpsRunForEver : Obligations.SelfJumpsRunForEver := by
  refine ⟨fun s hs hw => runsTo_self ?_, fun s addr hs hlit hz hw => runsTo_self ?_,
    fun s addr hs hlit hc hw => runsTo_self ?_⟩
  · rw [step_of_fetchWord_encode hs (fun _ => rfl) hw, exec_jmp, State.setPc_pc_self]
  · rw [step_of_fetchWord_encode hs (fun _ => rfl) hw, exec_jz, hz, State.pcMarked, hlit]; rfl
  · rw [step_of_fetchWord_encode hs (fun _ => rfl) hw, exec_jc, hc, State.pcMarked, hlit]; rfl

/-- A reflexive and transitive relation that holds of every step holds of every run. -/
theorem runsTo_induction {R : State → State → Prop} (hrefl : ∀ s, R s s)
    (htrans : ∀ s t u, R s t → R t u → R s u) (hstep : ∀ s t, step s = .next t → R s t)
    {k : Nat} {s t : State} (h : RunsTo k s t) : R s t := by
  induction k generalizing s with
  | zero => cases h; exact hrefl _
  | succ k ih =>
    obtain ⟨u, hs, hr⟩ := runsTo_succ_iff.mp h
    exact htrans s u t (hstep s u hs) (ih hr)

/-- The program and the parameters are the same, and the histories have only moved on. -/
def KeepsProgramAndHistory (s t : State) : Prop :=
  t.rom = s.rom ∧ t.config = s.config ∧ s.out <+: t.out ∧ t.input <:+ s.input ∧ s.draws ≤ t.draws

theorem KeepsProgramAndHistory.refl (s : State) : KeepsProgramAndHistory s s :=
  ⟨rfl, rfl, List.prefix_rfl, List.suffix_rfl, Nat.le_refl _⟩

theorem KeepsProgramAndHistory.trans (s t u : State) (h : KeepsProgramAndHistory s t)
    (h' : KeepsProgramAndHistory t u) : KeepsProgramAndHistory s u := by
  obtain ⟨hrom, hcfg, hout, hin, hdr⟩ := h
  obtain ⟨hrom', hcfg', hout', hin', hdr'⟩ := h'
  exact ⟨hrom'.trans hrom, hcfg'.trans hcfg, hout.trans hout', hin'.trans hin, Nat.le_trans hdr hdr'⟩

/-- OUT alone appends to the output history. -/
theorem out_prefix_effect (i : Instr) (s : State) : s.out <+: (effect i s).out := by
  cases i with
  | out row => exact List.prefix_append _ _
  | _ => exact List.prefix_rfl

/-- IN alone takes a byte from the known input. -/
theorem effect_input_suffix (i : Instr) (s : State) : (effect i s).input <:+ s.input := by
  cases i with
  | inp u => exact List.tail_suffix _
  | _ => exact List.suffix_rfl

/-- An ALU command adds what it draws to the counter, IN one when no byte is known, and nothing else moves it. -/
theorem draws_le_effect (i : Instr) (s : State) : s.draws ≤ (effect i s).draws := by
  cases i with
  | add u rn | sub u rn | and u rn | or u rn | xor u rn | not u | inc u | dec u => exact Nat.le_add_right _ _
  | inp u =>
    rw [effect, State.advanceMarked_draws, State.setW_draws, State.consumeInput_draws]
    split
    · exact Nat.le_succ _
    · exact Nat.le_refl _
  | _ => exact Nat.le_refl _

theorem step_keepsProgramAndHistory (s t : State) (h : step s = .next t) : KeepsProgramAndHistory s t := by
  obtain ⟨-, i, -, rfl⟩ := step_eq_next h
  exact ⟨effect_rom i s, effect_config i s, out_prefix_effect i s, effect_input_suffix i s, draws_le_effect i s⟩

theorem runsTo_keepsProgramAndHistory {k : Nat} {s t : State} (h : RunsTo k s t) : KeepsProgramAndHistory s t :=
  runsTo_induction KeepsProgramAndHistory.refl KeepsProgramAndHistory.trans step_keepsProgramAndHistory h

/-- Settles O49: every step has the property, by the frame of its instruction, and the relation is reflexive and
transitive. -/
theorem runsKeepProgramAndHistory : Obligations.RunsKeepProgramAndHistory := fun _ _ _ h =>
  runsTo_keepsProgramAndHistory h

/-- Settles O50: a run keeps the ROM and the parameters, so every word it fetches is an assigned (and canonical) one, which
is an instruction; the only fault left is that of a halted machine. -/
theorem assignedProgramsRunSafely : Obligations.AssignedProgramsRunSafely := by
  intro s himage k t hr f hf
  obtain ⟨hrom, hcfg, -⟩ := runsTo_keepsProgramAndHistory hr
  cases ht : t.halted with
  | true =>
    rw [step_of_halted ht] at hf
    exact (Host.Outcome.fault.inj hf).symm
  | false =>
    have hword : t.fetchWord = s.romRead t.pc := by rw [State.fetchWord, State.romRead, State.romRead, hrom]
    obtain ⟨i, hi⟩ : ∃ i : Instr, t.fetchInstr = .ok i := by
      rw [State.fetchInstr, hword, hcfg]
      exact (exists_instrUnder_eq_ok_iff _ _).mpr (.inr (himage t.pc))
    rw [step_of_fetchInstr_ok ht hi, exec_eq_effect] at hf
    cases hf

/-! ## The canonical form of the memories -/

/-- STORE alone writes a memory, and a RAM write keeps the form. -/
theorem effect_wf (i : Instr) {s : State} (h : Memory.wf s = true) : Memory.wf (effect i s) = true := by
  cases i with
  | store a => exact Memory.wf_ramWrite s a s.w h
  | _ => exact h

/-- Settles O51, by `effect_wf`. -/
theorem stepKeepsMemoriesCanonical : Obligations.StepKeepsMemoriesCanonical := by
  intro s t hwf h
  obtain ⟨-, i, -, rfl⟩ := step_eq_next h
  exact effect_wf i hwf

end Sys2Proof.Machine
end

