-- ==== Sys2Proof/Proofs/Alu.lean ====
section
/-!
PROOFS. The ALU commands (41_alu.md): result, flags and frame of each, and the short sequences that use them.
-/
namespace Sys2Proof.Machine

/-! ## What every ALU command does -/

/-- No ALU command touches the file, the memories, the program or the halt state. -/
theorem alu_frame (s : State) (op : AluOp) (r : Byte) :
    KeepsFile s (s.alu op r) ∧ KeepsRam s (s.alu op r) ∧ KeepsProgram s (s.alu op r) ∧ KeepsHalted s (s.alu op r) :=
  ⟨fun _ => rfl, fun _ => rfl, ⟨fun _ => rfl, rfl⟩, rfl⟩

/-- An arithmetic command draws no free value either, and so leaves the ports as they were. -/
theorem alu_arith_frame (s : State) {op : AluOp} (hop : op.isLogic = false) (r : Byte) :
    KeepsFile s (s.alu op r) ∧ KeepsRam s (s.alu op r) ∧ KeepsProgram s (s.alu op r) ∧ KeepsPorts s (s.alu op r) ∧
      KeepsHalted s (s.alu op r) := by
  obtain ⟨hfile, hram, hprog, hhalt⟩ := alu_frame s op r
  refine ⟨hfile, hram, hprog, ⟨rfl, rfl, ?_⟩, hhalt⟩
  rw [State.alu_draws, aluDraws_arith _ _ hop, Nat.add_zero]

/-- `zeroF` tests the result (D5). -/
theorem alu_zeroF_iff (s : State) (op : AluOp) (r : Byte) :
    (s.alu op r).zeroF = true ↔ (s.alu op r).w = 0 := aluZero_iff op s.w r

/-- The rest of a logic command, by P_CARRY_LOGIC. -/
theorem alu_logicCommandRest (s : State) {op : AluOp} (hop : op.isLogic = true) (r : Byte) :
    LogicCommandRest s (s.alu op r) := by
  obtain ⟨hfile, hram, hprog, hhalt⟩ := alu_frame s op r
  refine ⟨alu_zeroF_iff s op r, ?_, ?_, rfl, rfl, rfl, hfile, hram, hprog, hhalt⟩
  · rw [State.alu_carryF, aluCarry_logic _ _ hop]
    cases h : s.config.carryLogic <;> simp only [carryOfLogic, h]
  · rw [State.alu_draws, aluDraws, hop]
    cases s.config.carryLogic <;> rfl

/-! ## When a result is zero -/

theorem aluZero_sub_iff (w r : Byte) : aluZero .sub w r = true ↔ w = r := by
  rw [aluZero_iff, aluResult_sub, BitVec.sub_eq_iff_eq_add, BitVec.zero_add]

theorem aluZero_or_iff (w r : Byte) : aluZero .or w r = true ↔ w = 0 ∧ r = 0 := by
  rw [aluZero_iff, aluResult_or]
  exact BitVec.or_eq_zero_iff

theorem aluZero_xor_iff (w r : Byte) : aluZero .xor w r = true ↔ w = r := by
  rw [aluZero_iff, aluResult_xor, BitVec.xor_eq_zero_iff]

theorem aluZero_not_iff (w r : Byte) : aluZero .not w r = true ↔ w = 0xFF := by
  rw [aluZero_iff, aluResult_not]
  bv_omega

theorem aluZero_inc_iff (w r : Byte) : aluZero .inc w r = true ↔ w = 0xFF := by
  rw [aluZero_iff, aluResult_inc]
  bv_omega

theorem aluZero_dec_iff (w r : Byte) : aluZero .dec w r = true ↔ w = 0x01 := by
  rw [aluZero_iff, aluResult_dec, BitVec.sub_eq_iff_eq_add, BitVec.zero_add]

/-! ## The carry of each arithmetic command -/

theorem aluCarry_add_iff (c : Config) (w r : Byte) (old : Bool) (n : Nat) :
    aluCarry c .add w r old n = true ↔ 256 ≤ w.toNat + r.toNat := by
  rw [aluCarry, aluBit8_add, decide_eq_true_iff]

theorem aluCarry_sub (c : Config) (w r : Byte) (old : Bool) (n : Nat) :
    aluCarry c .sub w r old n = carryOfBorrow c (decide (w.toNat < r.toNat)) := by
  rw [aluCarry, aluBit8_sub]

theorem aluCarry_inc (c : Config) (w r : Byte) (old : Bool) (n : Nat) :
    aluCarry c .inc w r old n = carryOfIncDec c old (decide (w.toNat = 255)) := by
  rw [aluCarry, aluBit8_inc]

theorem aluCarry_dec (c : Config) (w r : Byte) (old : Bool) (n : Nat) :
    aluCarry c .dec w r old n = carryOfIncDec c old (carryOfBorrow c (decide (w.toNat = 0))) := by
  rw [aluCarry, aluBit8_dec]

/-! ## The eight commands -/

/-- Settles O24: the 8-bit sum, bit 8 of the 9-bit one as carry, and the frame of an arithmetic command. -/
theorem addGivesSumAndCarry : Obligations.AddGivesSumAndCarry := by
  intro u rn s
  refine ⟨_, exec_add u rn s, ?_, aluCarry_add_iff s.config _ _ s.carryF s.draws, alu_zeroF_iff s _ _, rfl, alu_arith_frame s rfl _⟩
  rw [State.alu_w, aluResult_add, BitVec.toNat_add]

/-- Settles O25: the borrow is `w < r` (`aluCarry_sub`), read by P_CARRY_SUB, and zero is equality. -/
theorem subGivesDifferenceAndBorrow : Obligations.SubGivesDifferenceAndBorrow := by
  intro u rn s
  refine ⟨_, exec_sub u rn s, ?_, ?_, alu_zeroF_iff s _ _, aluZero_sub_iff _ _, rfl, alu_arith_frame s rfl _⟩
  · rw [State.alu_w, aluResult_sub, BitVec.toNat_sub]
    omega
  · rw [State.alu_carryF, aluCarry_sub]
    cases h : s.config.carrySub <;> simp [carryOfBorrow, h]

/-- Settles O26: the result bit by bit, with the common rest of a logic command. -/
theorem andIsBitwise : Obligations.AndIsBitwise := by
  intro u rn s
  refine ⟨_, exec_and u rn s, fun k => ?_, alu_logicCommandRest s rfl _⟩
  rw [State.alu_w, aluResult_and, BitVec.getLsbD_and]

/-- Settles O27: the result bit by bit, with the common rest of a logic command. -/
theorem orIsBitwise : Obligations.OrIsBitwise := by
  intro u rn s
  refine ⟨_, exec_or u rn s, fun k => ?_, aluZero_or_iff _ _, alu_logicCommandRest s rfl _⟩
  rw [State.alu_w, aluResult_or, BitVec.getLsbD_or]

/-- Settles O28: the result bit by bit, with the common rest of a logic command. -/
theorem xorIsBitwise : Obligations.XorIsBitwise := by
  intro u rn s
  refine ⟨_, exec_xor u rn s, fun k => ?_, aluZero_xor_iff _ _, alu_logicCommandRest s rfl _⟩
  rw [State.alu_w, aluResult_xor, BitVec.getLsbD_xor]

/-- Settles O29: the result bit by bit, with the common rest of a logic command. -/
theorem notComplementsEveryBit : Obligations.NotComplementsEveryBit := by
  intro u s
  refine ⟨_, exec_not u s, fun k hk => ?_, aluZero_not_iff _ _, alu_logicCommandRest s rfl _⟩
  rw [State.alu_w, aluResult_not, BitVec.getLsbD_not, decide_eq_true hk, Bool.true_and]

/-- Settles O30: the carry of `w + 1` is `w = 0xFF` (`aluCarry_inc`), or kept by P_CARRY_INCDEC. -/
theorem incAddsOne : Obligations.IncAddsOne := by
  intro u s
  refine ⟨_, exec_inc u s, ?_, ?_, aluZero_inc_iff _ _, rfl, alu_arith_frame s rfl _⟩
  · rw [State.alu_w, aluResult_inc, BitVec.toNat_add]; rfl
  · rw [State.alu_carryF, aluCarry_inc]
    cases h : s.config.carryIncDec <;> simp [carryOfIncDec, h, ← BitVec.toNat_inj]

/-- Settles O31: the borrow of `w - 1` is `w = 0x00` (`aluCarry_dec`), read by both parameters. -/
theorem decSubtractsOne : Obligations.DecSubtractsOne := by
  intro u s
  refine ⟨_, exec_dec u s, ?_, ?_, aluZero_dec_iff _ _, rfl, alu_arith_frame s rfl _⟩
  · rw [State.alu_w, aluResult_dec, BitVec.toNat_sub, Nat.add_comm]; rfl
  · rw [State.alu_carryF, aluCarry_dec]
    cases hi : s.config.carryIncDec <;> cases hs : s.config.carrySub <;>
      simp [carryOfIncDec, carryOfBorrow, hi, hs, ← BitVec.toNat_inj]

/-! ## Sequences of instructions -/

/-- The state after a list of instructions, each on what the one before it left. -/
def effectAll (is : List Instr) (s : State) : State := is.foldl (fun t i => effect i t) s

theorem execAll_eq_effectAll (is : List Instr) (s : State) : execAll is s = .next (effectAll is s) := by
  induction is generalizing s with
  | nil => rfl
  | cons i is ih => simp only [execAll, exec_eq_effect, ih]; rfl

/-- Settles O32: each pair is the ALU's second result on its first. -/
theorem aluIdentitiesHold : Obligations.AluIdentitiesHold := by
  intro u v a b rn s
  refine ⟨⟨_, execAll_eq_effectAll _ s, ?_⟩, ⟨_, execAll_eq_effectAll _ s, ?_⟩, ⟨_, execAll_eq_effectAll _ s, ?_⟩,
    ⟨_, execAll_eq_effectAll _ s, ?_⟩, ⟨_, execAll_eq_effectAll _ s, ?_⟩⟩
  · show aluResult .sub (aluResult .add s.w (s.reg rn)) (s.reg rn) = s.w
    rw [aluResult_sub, aluResult_add, BitVec.add_sub_cancel]
  · show aluResult .not (aluResult .not s.w 0) 0 = s.w
    rw [aluResult_not, aluResult_not, BitVec.not_not]
  · show aluResult .xor (aluResult .xor s.w (s.reg rn)) (s.reg rn) = s.w
    rw [aluResult_xor, aluResult_xor, BitVec.xor_assoc, BitVec.xor_self, BitVec.xor_zero]
  · show aluResult .dec (aluResult .inc s.w 0) 0 = s.w
    rw [aluResult_dec, aluResult_inc, BitVec.add_sub_cancel]
  · show (aluResult .inc (aluResult .not s.w 0) 0).toNat = (256 - s.w.toNat) % 256
    have hneg : ~~~s.w + 1 = -s.w := (BitVec.neg_eq_not_add s.w).symm
    rw [aluResult_inc, aluResult_not, hneg, BitVec.toNat_neg]

theorem add_two_eq (b : Byte) : b + 2 = b + 1 + 1 := (BitVec.add_assoc b 1 1).symm

/-- A JZ after an ALU command tests the command's result (D10). -/
theorem alu_then_jz_pc (s : State) (op : AluOp) (r addr : Byte) :
    (effect (.jz addr) (s.alu op r)).pc =
      if aluZero op s.w r then addr else if s.config.literalPcSignals then s.pc + 1 else s.pc + 2 := by
  rw [effect_pc, add_two_eq]; rfl

/-- A JC after an ALU command tests the command's carry (D10). -/
theorem alu_then_jc_pc (s : State) (op : AluOp) (r addr : Byte) :
    (effect (.jc addr) (s.alu op r)).pc =
      if aluCarry s.config op s.w r s.carryF s.draws then addr
      else if s.config.literalPcSignals then s.pc + 1 else s.pc + 2 := by
  rw [effect_pc, add_two_eq]; rfl

/-- Settles O33: the jumps test what SUB left, zero on equality and the borrow (or its inverse) as the carry. -/
theorem subThenJumpCompares : Obligations.SubThenJumpCompares := by
  intro u rn addr s
  refine ⟨⟨_, execAll_eq_effectAll _ s, ?_⟩, ⟨_, execAll_eq_effectAll _ s, ?_⟩⟩
  · refine (alu_then_jz_pc s .sub (s.reg rn) addr).trans ?_
    simp only [aluZero_sub_iff]
  · refine (alu_then_jc_pc s .sub (s.reg rn) addr).trans ?_
    rw [aluCarry_sub]
    cases h : s.config.carrySub <;> simp [carryOfBorrow, h]

/-- Settles O46: MOVW's register reads back as W, which ADD doubles; DEC leaves zero exactly from 0x01. -/
theorem writesShowInTheNextInstruction : Obligations.WritesShowInTheNextInstruction := by
  intro u v a addr rn s
  have hreg : (s.setReg rn s.w).reg rn = s.w := by rw [State.setReg_reg, if_pos rfl]
  refine ⟨⟨_, execAll_eq_effectAll _ s, hreg, ?_, ?_⟩, ⟨_, execAll_eq_effectAll _ s, ?_⟩⟩
  · show (aluResult .add s.w ((s.setReg rn s.w).reg rn)).toNat = 2 * s.w.toNat % 256
    rw [hreg, aluResult_add, BitVec.toNat_add, Nat.two_mul]
  · refine (aluCarry_add_iff s.config s.w ((s.setReg rn s.w).reg rn) s.carryF s.draws).trans ?_
    rw [hreg]
    omega
  · refine (alu_then_jz_pc s .dec 0 addr).trans ?_
    simp only [aluZero_dec_iff]

/-! ## Memory across a sequence -/

/-- A sequence leaves a RAM cell as it was when none of its instructions is a STORE to it. -/
theorem effectAll_ramRead {is : List Instr} {a : Byte} (h : ∀ i ∈ is, i ≠ .store a) (s : State) :
    (effectAll is s).ramRead a = s.ramRead a := by
  induction is generalizing s with
  | nil => rfl
  | cons i is ih =>
    calc (effectAll is (effect i s)).ramRead a = (effect i s).ramRead a :=
          ih (fun j hj => h j (List.mem_cons_of_mem i hj)) (effect i s)
      _ = s.ramRead a := effect_ramRead (h i List.mem_cons_self) s

/-- Settles O45: the LOADA reads the cell the STORE wrote (`effect_store_ramRead`) or one it left (`effect_ramRead`). -/
theorem loadaAfterStoreReadsItBack : Obligations.LoadaAfterStoreReadsItBack := by
  intro a b c s
  refine ⟨⟨_, execAll_eq_effectAll _ s, State.ramWrite_ramRead s a s.w b⟩,
    ⟨_, execAll_eq_effectAll _ s, effect_store_ramRead a s, ?_⟩⟩
  show s.pc + 1 + 1 + 1 = s.pc + 3
  rw [BitVec.add_assoc, BitVec.add_assoc]; rfl

/-- Settles O59: what the STORE wrote stands in the cell until the LOADA, through a list (`effectAll_ramRead`) and through a
run (`runsTo_ramRead`). -/
theorem loadaReadsTheMostRecentStore : Obligations.LoadaReadsTheMostRecentStore := by
  refine ⟨fun a is s his => ⟨_, execAll_eq_effectAll _ s, ?_⟩, fun a k s v hst hr hns hv hld => ?_⟩
  · have hlast : effectAll (.store a :: (is ++ [.loada a])) s = effect (.loada a) (effectAll is (effect (.store a) s)) :=
      List.foldl_append
    rw [hlast]
    exact (effectAll_ramRead his _).trans (effect_store_ramRead a s)
  · obtain ⟨u, hu, hrest⟩ := runsTo_succ_iff.mp hr
    obtain ⟨-, i, hi, rfl⟩ := step_eq_next hu
    obtain rfl : i = .store a := Except.ok.inj (hi.symm.trans hst)
    refine ⟨effect (.loada a) v, (step_of_fetchInstr_ok hv hld).trans (exec_eq_effect _ v), ?_⟩
    calc v.ramRead a = (effect (.store a) s).ramRead a :=
          runsTo_ramRead hrest fun j w hj hw => hns (j + 1) w j.succ_pos hj (runsTo_succ_iff.mpr ⟨_, hu, hw⟩)
      _ = s.w := effect_store_ramRead a s

end Sys2Proof.Machine
end

