-- ==== Sys2Proof/Proofs/OtherCommands.lean ====
section
/-!
PROOFS. The commands beside the ALU whose rules rest on a decision of the spec: NOP, MOV, SET and CLEAR (40_data.md), JZ, JC
and HLT (42_jump.md), IN and OUT (43_io.md).
-/
namespace Sys2Proof.Machine

/-- Settles O17: falling through is a write of `pc`. -/
theorem nopChangesNothingButPc : Obligations.NopChangesNothingButPc := by
  intro u s
  refine ⟨rfl, rfl, rfl, _, exec_nop u s, rfl, fun hpc => ?_, setPc_frame s s.pcNext⟩
  rw [State.advance_pc, State.pcNext, hpc]; rfl

/-- Settles O21: the frame is that of a write of W. -/
theorem movCopiesTheRegister : Obligations.MovCopiesTheRegister := fun u rn s =>
  ⟨_, exec_mov u rn s, rfl, rfl, setW_advance_frame s (s.reg rn)⟩

/-- Settles O23: the frame of both is that of a write of W. -/
theorem setAndClearLoadTheirConstants : Obligations.SetAndClearLoadTheirConstants := fun u s =>
  ⟨⟨_, exec_set u s, rfl, rfl, setW_advance_frame s 0xFF⟩, ⟨_, exec_clear u s, rfl, rfl, setW_advance_frame s 0x00⟩⟩

/-- Settles O35: the frame is that of a write of `pc`. -/
theorem jzTestsZeroF : Obligations.JzTestsZeroF := by
  intro addr s
  refine ⟨_, exec_jz addr s, fun hz => ?_, fun hz => ?_, setPc_frame s _⟩ <;> rw [State.setPc_pc, hz] <;> rfl

/-- Settles O36: the frame is that of a write of `pc`. -/
theorem jcTestsCarryF : Obligations.JcTestsCarryF := by
  intro addr s
  refine ⟨_, exec_jc addr s, fun hc => ?_, fun hc => ?_, setPc_frame s _⟩ <;> rw [State.setPc_pc, hc] <;> rfl

/-- Settles O37: `State.halt` writes the one field. -/
theorem hltHaltsInPlace : Obligations.HltHaltsInPlace := fun u s =>
  ⟨_, exec_hlt u s, rfl, rfl, rfl, fun _ => rfl, ⟨rfl, rfl⟩, fun _ => rfl, ⟨fun _ => rfl, rfl⟩, ⟨rfl, rfl, rfl⟩⟩

/-- Settles O38, with a byte known and without. -/
theorem inReadsTheInputByte : Obligations.InReadsTheInputByte := by
  intro u s
  refine ⟨_, exec_inp u s, ?_, rfl, rfl, fun _ => rfl, ⟨rfl, rfl⟩, fun _ => rfl, ⟨fun _ => rfl, rfl⟩, rfl⟩
  cases h : s.input <;> simp [State.inputByte, h]

/-- Settles O39: the output history and `pc` are all that OUT writes. -/
theorem outAppendsRowAndValue : Obligations.OutAppendsRowAndValue := fun row s =>
  ⟨_, exec_out row s, rfl, rfl, rfl, rfl, rfl, fun _ => rfl, ⟨rfl, rfl⟩, fun _ => rfl, ⟨fun _ => rfl, rfl⟩, rfl⟩

end Sys2Proof.Machine
end

