-- ==== Sys2Proof/Proofs/Datapath.lean ====
section
/-!
PROOFS. The data path under the signal rows against the instructions' own rules (30_encoding.md section 6, 10_state.md
section 8).
-/
namespace Sys2Proof.Machine

/-- Driven by its own row, the data path has the effect of every instruction but MOV, SET and CLEAR, with `pc` of T-28. -/
theorem datapath_setPc_eq_effect {i : Instr} (s : State) (hmov : ∀ (u : BitVec 5) (rn : Reg), i ≠ .mov u rn)
    (hset : ∀ u : Byte, i ≠ .set u) (hclear : ∀ u : Byte, i ≠ .clear u) :
    (datapath (signals i s.zeroF s.carryF) i.operand s).setPc (pcAfter i s) = effect i s := by
  cases i with
  | mov u rn => exact absurd rfl (hmov u rn)
  | set u => exact absurd rfl (hset u)
  | clear u => exact absurd rfl (hclear u)
  | jz addr => cases h : s.zeroF <;> simp only [effect, pcAfter, h] <;> rfl
  | jc addr => cases h : s.carryF <;> simp only [effect, pcAfter, h] <;> rfl
  | _ => rfl

/-- Under LITERAL_PC_SIGNALS the data path moves `pc` as T-28 says. -/
theorem datapath_pc {s : State} (hlit : s.config.literalPcSignals = true) (i : Instr) :
    (datapath (signals i s.zeroF s.carryF) i.operand s).pc = pcAfter i s := by
  cases i with
  | jz addr => cases h : s.zeroF <;> simp only [pcAfter, h, hlit] <;> rfl
  | jc addr => cases h : s.carryF <;> simp only [pcAfter, h, hlit] <;> rfl
  | inp u | out row => simp only [pcAfter, hlit]; rfl
  | _ => rfl

/-- Settles O54: `datapath_setPc_eq_effect`, and where `pc` agrees too (`datapath_pc`) nothing is left to set. -/
theorem datapathAgreesWithTheInstructionRules : Obligations.DatapathAgreesWithTheInstructionRules := by
  intro i s hmov hset hclear
  have heff := datapath_setPc_eq_effect s hmov hset hclear
  refine ⟨exec_eq_next_iff.mpr heff.symm, fun hlit => exec_eq_next_iff.mpr ?_⟩
  rw [← heff, ← datapath_pc hlit i, State.setPc_pc_self]

/-- Settles O55: no bus enable is set in the three rows, so W takes the undriven bus, and the rest is the fall-through. -/
theorem literalRowsOfMovSetClearMissOnlyW : Obligations.LiteralRowsOfMovSetClearMissOnlyW := by
  intro u n rn s
  refine ⟨fun i hi => ?_, exec_mov u rn s⟩
  simp only [List.mem_cons, List.not_mem_nil, or_false] at hi
  obtain rfl | rfl | rfl := hi
  · exact ⟨rfl, rfl, _, exec_mov u rn s, rfl⟩
  · exact ⟨rfl, rfl, _, exec_set n s, rfl⟩
  · exact ⟨rfl, rfl, _, exec_clear n s, rfl⟩

end Sys2Proof.Machine
end

