-- ==== Sys2Proof/Proofs/Launch.lean ====
section
/-!
PROOFS. Reset and the launch states (10_state.md section 10, 70_reset_and_hazards.md section 1).
-/
namespace Sys2Proof.Machine

/-- Settles O52: both images of a launch state are canonical lists, and placing a word is a load. -/
theorem resetAndLaunchMemoriesAreCanonical : Obligations.ResetAndLaunchMemoriesAreCanonical := by
  refine ⟨Memory.wf_reset, fun l => ?_, fun s nbits w h => Memory.wf_placeWord s _ h⟩
  exact Bool.and_eq_true_iff.mpr ⟨ramOfImage_wf l.initRam, romOfImage_wf l.romImage⟩

/-- An image that holds everywhere what an unlisted cell reads as lists nothing. -/
theorem cellsOf_const {w : Nat} (d : BitVec w) (n lo : Nat) : cellsOf d (fun _ => d) n lo = [] := by
  induction n generalizing lo with
  | zero => rfl
  | succ n ih => rw [cellsOf, if_pos rfl, ih]

/-- Settles O56: the images of `Launch.named` list nothing (`cellsOf_const`). -/
theorem resetIsTheNamedLaunchState : Obligations.ResetIsTheNamedLaunchState := by
  have hram : ramOfImage Launch.named.initRam = [] := cellsOf_const ramUnlisted 256 0
  have hrom : romOfImage Launch.named.romImage = [] := cellsOf_const romUnlisted 256 0
  refine ⟨rfl, rfl, rfl, rfl, ?_⟩
  rw [launch, hram, hrom]; rfl

/-- Settles O57: the two images read back at every address. -/
theorem launchStateHoldsItsInputs : Obligations.LaunchStateHoldsItsInputs := by
  intro l
  refine ⟨rfl, rfl, rfl, rfl, fun r => ?_, rfl, rfl, launch_ramRead l, cellRead_romOfImage l.romImage, rfl, rfl⟩
  cases r <;> rfl

/-- Settles O58: a restart is a launch state with the ROM and the parameters of the state before it. -/
theorem resetLeavesTheHaltedState : Obligations.ResetLeavesTheHaltedState := fun _ _ =>
  ⟨rfl, rfl, rfl, ⟨fun _ => rfl, rfl⟩, rfl⟩

end Sys2Proof.Machine
end
